-- ==== Sys2Proof/Word.lean ====
section
/-! DEFINITION. The bit vectors of the block: the widths the spec gives to data, register numbers, the
immediate field and the predictor (00_scope.md R5 to R8, 10_state.md R41 to R44). -/

namespace Sys2Proof

/-- A register, a data or instruction word, the PC, an ALU value, a latch data field: 32 bits (R8, R24).
`+` and `-` on it are modulo 2^32. -/
abbrev Word := BitVec 32

/-- A register-number field, 5 bits in the instruction word and in the latches (R42, R91); only 0 to 7 name
a register (R23). -/
abbrev RegNum := BitVec 5

/-- The 16-bit `imm` field (R91). -/
abbrev Imm16 := BitVec 16

/-- The 2-bit saturating predictor counter, domain {0,1,2,3} (R32). -/
abbrev PredCounter := BitVec 2

/-- `zext_32` of the 16-bit immediate: never sign-extended (R8, R96). -/
def zext32 (imm : Imm16) : Word := imm.zeroExtend 32

/-- `u(a) div 4`: the word index of a byte address taken as unsigned (R8, R61, R63). -/
def wordIndex (a : Word) : Nat := a.toNat / 4

end Sys2Proof
end

