-- ==== Sys2Proof/Config.lean ====
section
/-! DEFINITION. What the implementation fixes: the sizes of 00_scope.md R5 and the launch values of R6 and
10_state.md R50. The block leaves no value open after which it goes on, so there is no free value here
(log 13). -/

namespace Sys2Proof.Config

/-- `IMEM_WORDS`: the words of the instruction memory (R5). -/
abbrev imemWords : Nat := 16

/-- `DMEM_WORDS`: the words of the data memory (R5). -/
abbrev dmemWords : Nat := 16

/-- `PC_RESET`, the entry point (R6, R50). -/
def pcReset : Word := 0

/-- The default of `R_INIT`: every register 0 (R6, R50; log 4). -/
def registerInit : Word := 0

/-- The word of IM or DM that the loader did not supply (R50, R272; log 4). -/
def unlistedWord : Word := 0

/-- The value `State.reset` takes for the OPEN parameter `PRED_RESET`. DESIGN CHOICE, unsafe (log 3): the spec
fixes none (R50, decision D5). Claims about launch quantify over the parameter through `State.launch`. -/
def predReset : PredCounter := 0

end Sys2Proof.Config
end

