-- ==== Sys2Proof/Syntax.lean ====
section
/-! DEFINITION. The instruction set as syntax: one constructor for each row of spec/opcode_table.json
(30_encoding.md R90, R99). -/

namespace Sys2Proof

/-- The seven instructions. Register operands are the raw 5-bit fields; `Instr.wf` asks that they name a
register. Operands stand in the order of the assembler syntax (R104). -/
inductive Instr where
  /-- `add $rd,$rs,$rt` (R121). -/
  | add (rd rs rt : RegNum)
  /-- `sub $rd,$rs,$rt` (R122). -/
  | sub (rd rs rt : RegNum)
  /-- `lw $rt,imm($rs)` (R123). -/
  | lw (rt : RegNum) (imm : Imm16) (rs : RegNum)
  /-- `sw $rt,imm($rs)` (R124). -/
  | sw (rt : RegNum) (imm : Imm16) (rs : RegNum)
  /-- `bne $rs,$rt,imm` (R125). -/
  | bne (rs rt : RegNum) (imm : Imm16)
  /-- `halt`: every word with opcode 63; its 26 unused bits are kept (R94, R126). -/
  | halt (unused : BitVec 26)
  /-- `noop`: the word 0 (R95, R127). -/
  | noop
  deriving DecidableEq, Repr

end Sys2Proof
end

