-- ==== Sys2Proof/WellFormed.lean ====
section
/-! DEFINITION. Well-formed instructions: every used register field names one of the 8 registers
(10_state.md R23, 30_encoding.md R98, R100). -/

namespace Sys2Proof

/-- A register number that names a register: 0 to 7 (R20, R98). -/
def RegNum.named (n : RegNum) : Bool := n.toNat < 8

/-- R100 on syntax. The unused bits of a `halt` are free (R94). -/
def Instr.wf : Instr → Bool
  | .add rd rs rt => RegNum.named rd && RegNum.named rs && RegNum.named rt
  | .sub rd rs rt => RegNum.named rd && RegNum.named rs && RegNum.named rt
  | .lw rt _ rs => RegNum.named rt && RegNum.named rs
  | .sw rt _ rs => RegNum.named rt && RegNum.named rs
  | .bne rs rt _ => RegNum.named rs && RegNum.named rt
  | .halt _ => true
  | .noop => true

end Sys2Proof
end

