-- ==== Sys2Proof/Decode.lean ====
section
/-! DEFINITION. Field extractors, class predicates, the decoder, the encoder and the opcode table
(00_scope.md R11, R12; 30_encoding.md R90 to R101). -/

namespace Sys2Proof

/-! ## Field extractors (R11, R91): total on every word -/

/-- `w[31:26]`. -/
def opcode (w : Word) : BitVec 6 := w.extractLsb' 26 6
/-- `w[25:21]`. -/
def rsOf (w : Word) : RegNum := w.extractLsb' 21 5
/-- `w[20:16]`. -/
def rtOf (w : Word) : RegNum := w.extractLsb' 16 5
/-- `w[15:11]`. -/
def rdOf (w : Word) : RegNum := w.extractLsb' 11 5
/-- `w[10:6]`. -/
def shamtOf (w : Word) : BitVec 5 := w.extractLsb' 6 5
/-- `w[5:0]`. -/
def functOf (w : Word) : BitVec 6 := w.extractLsb' 0 6
/-- `w[15:0]`. -/
def immOf (w : Word) : Imm16 := w.extractLsb' 0 16
/-- Bits 25:0, the unused bits of a `halt` (R94). -/
def unusedOf (w : Word) : BitVec 26 := w.extractLsb' 0 26

/-! ## Class predicates (R12) -/

/-- `isNoop(w)`: the word 0. -/
def isNoop (w : Word) : Bool := w == 0
/-- `isAlu(w)`: opcode 0 and funct 32 or 34. -/
def isAlu (w : Word) : Bool := opcode w == 0 && (functOf w == 32 || functOf w == 34)
/-- `isAdd(w)`. -/
def isAdd (w : Word) : Bool := isAlu w && functOf w == 32
/-- `isSub(w)`. -/
def isSub (w : Word) : Bool := isAlu w && functOf w == 34
/-- `isLw(w)`. -/
def isLw (w : Word) : Bool := opcode w == 35
/-- `isSw(w)`. -/
def isSw (w : Word) : Bool := opcode w == 43
/-- `isBne(w)`. -/
def isBne (w : Word) : Bool := opcode w == 4
/-- `isHalt(w)`. -/
def isHalt (w : Word) : Bool := opcode w == 63

/-! ## The decoder -/

/-- Why a word is reserved (R101). -/
inductive Reserved where
  /-- An opcode other than 0, 4, 35, 43, 63. -/
  | opcode (op : BitVec 6)
  /-- Opcode 0, not the word 0, with a funct other than 32 or 34. -/
  | funct (f : BitVec 6)
  /-- Opcode 0 with funct 32 or 34 and a non-zero shamt. -/
  | shamt (s : BitVec 5)
  /-- A defined instruction with a used register field of 8 or more. -/
  | register
  deriving DecidableEq, Repr

/-- The instruction, if its used register fields name registers (R100). -/
def checkRegisters (i : Instr) : Except Reserved Instr :=
  if i.wf then .ok i else .error .register

/-- The two R-format instructions (R92). -/
def decodeR (w : Word) : Except Reserved Instr :=
  if functOf w = 32 then
    if shamtOf w = 0 then checkRegisters (.add (rdOf w) (rsOf w) (rtOf w)) else .error (.shamt (shamtOf w))
  else if functOf w = 34 then
    if shamtOf w = 0 then checkRegisters (.sub (rdOf w) (rsOf w) (rtOf w)) else .error (.shamt (shamtOf w))
  else .error (.funct (functOf w))

/-- The decoder, total on every word; the word 0 is tested before the R format (R99). -/
def decode (w : Word) : Except Reserved Instr :=
  if w = 0 then .ok .noop
  else if opcode w = 0 then decodeR w
  else if opcode w = 35 then checkRegisters (.lw (rtOf w) (immOf w) (rsOf w))
  else if opcode w = 43 then checkRegisters (.sw (rtOf w) (immOf w) (rsOf w))
  else if opcode w = 4 then checkRegisters (.bne (rsOf w) (rtOf w) (immOf w))
  else if opcode w = 63 then .ok (.halt (unusedOf w))
  else .error (.opcode (opcode w))

/-- The word is one of the seven encodings (R100), as the decoder sees it. -/
def wellFormedWord (w : Word) : Bool := (decode w).isOk

/-! ## The encoder -/

/-- The R format: opcode 0, shamt 0 (R92). -/
def encodeR (rs rt rd : RegNum) (funct : BitVec 6) : Word :=
  (0#6 ++ rs ++ rt ++ rd ++ 0#5 ++ funct : BitVec (6 + 5 + 5 + 5 + 5 + 6))

/-- The I format (R93). -/
def encodeI (op : BitVec 6) (rs rt : RegNum) (imm : Imm16) : Word :=
  (op ++ rs ++ rt ++ imm : BitVec (6 + 5 + 5 + 16))

/-- The word of an instruction (R92 to R95). -/
def encode : Instr → Word
  | .add rd rs rt => encodeR rs rt rd 32
  | .sub rd rs rt => encodeR rs rt rd 34
  | .lw rt imm rs => encodeI 35 rs rt imm
  | .sw rt imm rs => encodeI 43 rs rt imm
  | .bne rs rt imm => encodeI 4 rs rt imm
  | .halt unused => (63#6 ++ unused : BitVec (6 + 26))
  | .noop => 0

/-! ## The opcode table (R99) -/

/-- A row of R99: a word matches the row when its bits under the mask are the match value. -/
structure Row where
  mnemonic : String
  value : Word
  mask : Word
  strictMask : Word
  deriving DecidableEq, Repr

/-- The seven rows of R99. -/
def opcodeTable : List Row :=
  [⟨"add", 0x00000020, 0xFC0007FF, 0xFF18C7FF⟩,
   ⟨"sub", 0x00000022, 0xFC0007FF, 0xFF18C7FF⟩,
   ⟨"lw", 0x8C000000, 0xFC000000, 0xFF180000⟩,
   ⟨"sw", 0xAC000000, 0xFC000000, 0xFF180000⟩,
   ⟨"bne", 0x10000000, 0xFC000000, 0xFF180000⟩,
   ⟨"halt", 0xFC000000, 0xFC000000, 0xFC000000⟩,
   ⟨"noop", 0x00000000, 0xFFFFFFFF, 0xFFFFFFFF⟩]

/-- The word matches the row under its strict mask (R99, decision D23). -/
def Row.matchesStrictly (r : Row) (w : Word) : Bool := w &&& r.strictMask == r.value

/-- The row number of an instruction in `opcodeTable`. -/
def Instr.row : Instr → Nat
  | .add _ _ _ => 0
  | .sub _ _ _ => 1
  | .lw _ _ _ => 2
  | .sw _ _ _ => 3
  | .bne _ _ _ => 4
  | .halt _ => 5
  | .noop => 6

/-- What the decoder reads from the instruction whose `nbits` bits are `w` (log 14): the block has one length,
32 bits, and no byte view (R62, R90), so a longer row is no instruction, and bits above `nbits` are 0. -/
def decodeTableWord (nbits w : Nat) : Option Instr :=
  if nbits ≤ 32 then (decode (BitVec.ofNat 32 (w % 2 ^ nbits))).toOption else none

end Sys2Proof
end

