-- ==== Sys2Proof/Machine/State.lean ====
section
/-! DEFINITION. The state of the block, whole and as plain data (10_state.md), the reasons a step can stop
(60_exceptions.md R246), the launch parameters (70_reset_and_hazards.md R270) and the launch state (R50). -/

namespace Sys2Proof.Machine

/-- One of the two word memories: (word index, word) pairs, indices strictly rising, no entry 0, which is
what an unlisted word holds (R50). Words, not bytes: R62 forbids a byte view (log 2). -/
abbrev Memory := List (Nat × Word)

/-- The fetch_decode_latch (R41). -/
structure FD where
  instr : Word
  pcPlus4 : Word
  pred : PredCounter
  deriving DecidableEq, Repr

/-- The decode_execute_latch (R42). -/
structure DE where
  instr : Word
  pcPlus4 : Word
  rs : RegNum
  rt : RegNum
  rd : RegNum
  imm : Word
  target : Word
  valA : Word
  valB : Word
  dest : RegNum
  pred : PredCounter
  deriving DecidableEq, Repr

/-- The execute_memory_latch (R43). -/
structure EM where
  instr : Word
  aluResult : Word
  storeData : Word
  dest : RegNum
  deriving DecidableEq, Repr

/-- The memory_writeback_latch (R44). -/
structure MW where
  instr : Word
  aluResult : Word
  memData : Word
  dest : RegNum
  deriving DecidableEq, Repr

/-- `bubble_FD`: every field 0 (R40). -/
def FD.bubble : FD := ⟨0, 0, 0⟩
/-- `bubble_DE`: every field 0 (R40). -/
def DE.bubble : DE := ⟨0, 0, 0, 0, 0, 0, 0, 0, 0, 0, 0⟩
/-- `bubble_EM`: every field 0 (R40). -/
def EM.bubble : EM := ⟨0, 0, 0, 0⟩
/-- `bubble_MW`: every field 0 (R40). -/
def MW.bubble : MW := ⟨0, 0, 0, 0⟩

/-- The complete state S of 10_state.md, at the start of a clock cycle. -/
structure State where
  /-- Program counter, a byte address (R24). -/
  pc : Word
  /-- The register file `x[0..7]`, no register hardwired (R20). -/
  x : Vector Word 8
  /-- Instruction memory (R29). -/
  im : Memory
  /-- Data memory (R30). -/
  dm : Memory
  /-- The predictor counter CTR (R32). -/
  ctr : PredCounter
  fd : FD
  de : DE
  em : EM
  mw : MW
  /-- CYCLES (R33, R255), unbounded. -/
  cycles : Nat
  /-- STALLS (R33, R256), unbounded. -/
  stalls : Nat
  /-- BRANCHES (R33, R257), unbounded. -/
  branches : Nat
  /-- MISPREDICTS (R33, R258), unbounded. -/
  mispredicts : Nat
  deriving DecidableEq, Repr

/-- Why the machine stops. All three are model outcomes, not architectural events (R240, R246). -/
inductive Fault where
  /-- Raised by `step` on a state with a `halt` in MW: that state is final and the cycle function is not applied
  to it (R160); by `refExec` on a `halt`, which ends the reference execution (R126).
  Safe: stuck, no behaviour is claimed (log 5). -/
  | halted
  /-- Raised by the Memory stage for a `lw` or `sw` whose word index is 16 or more (R66). Safe. -/
  | dataAddressOutOfRange (addr : Word)
  /-- Raised by the commit of a cycle that would latch a word fetched at index 16 or more (R65). Safe. -/
  | fetchOutOfRange (pc : Word)
  deriving DecidableEq, Repr

/-- Why the model gives a state no meaning. -/
inductive Refusal where
  /-- Raised by an arm of `exec` whose instruction has no meaning yet; no arm does. Safe. -/
  | notModelled (mnemonic : String)
  /-- Raised by `step`, `runProgram` and `refFetch`: `IM[index]` is not well-formed, a launch premise broken (R101,
  R246).
  Safe (log 8). -/
  | reservedInstruction (index : Nat) (word : Word)
  /-- Raised by `step`: a latch holds a reserved word, which no run reaches (R102). Safe (log 6). -/
  | reservedLatchWord (word : Word)
  /-- Raised by Writeback for a write to register 8 to 31, which no run reaches (R23, R46). Safe (log 7). -/
  | noSuchRegister (n : RegNum)
  deriving DecidableEq, Repr

/-- The launch parameters (R270), with the defaults the spec names (R50) and log 3 for `pred`. -/
structure Launch where
  /-- `IM_INIT`. -/
  im : Memory := []
  /-- `DM_INIT`. -/
  dm : Memory := []
  /-- `R_INIT`. -/
  x : Vector Word 8 := Vector.replicate 8 Config.registerInit
  /-- `PRED_RESET`, OPEN. -/
  pred : PredCounter := Config.predReset
  deriving DecidableEq, Repr

/-- The launch state, the start of cycle 1 (R50, R270). -/
def State.launch (p : Launch) : State where
  pc := Config.pcReset
  x := p.x
  im := p.im
  dm := p.dm
  ctr := p.pred
  fd := FD.bubble
  de := DE.bubble
  em := EM.bubble
  mw := MW.bubble
  cycles := 0
  stalls := 0
  branches := 0
  mispredicts := 0

/-- The machine right after reset: the launch state of the default parameters, both memories with nothing
listed (R50; logs 3 and 4). -/
def State.reset : State := State.launch {}

end Sys2Proof.Machine
end

