-- ==== Sys2Proof/Machine/Ops.lean ====
section
/-! DEFINITION. The named operations over the two memories and the register file, how outcomes are chained,
and the events a cycle reports. There is no operation "take an exception" and no return from one: the hardware
raises none (60_exceptions.md R240, R244, R245). -/

namespace Sys2Proof.Machine

/-! ## Outcomes -/

/-- What an operation answers: a value, a fault or a refusal. -/
abbrev Result (α : Type) := Host.Outcome α Fault Refusal

/-- Go on with the value, or stop as the first operation did. -/
def andThen {α β : Type} (r : Result α) (f : α → Result β) : Result β :=
  match r with
  | .next a => f a
  | .fault e => .fault e
  | .refused e => .refused e

/-- The value, where there is one. -/
def valueOf {α : Type} : Result α → Option α
  | .next a => some a
  | .fault _ => none
  | .refused _ => none

/-- The fault, where there is one. -/
def faultOf {α : Type} : Result α → Option Fault
  | .next _ => none
  | .fault e => some e
  | .refused _ => none

/-- The refusal, where there is one. -/
def refusalOf {α : Type} : Result α → Option Refusal
  | .next _ => none
  | .fault _ => none
  | .refused e => some e

/-! ## Memories (R29 to R31, R60 to R68) -/

/-- The word at an index; an unlisted word is 0 (R50). -/
def Memory.read : Memory → Nat → Word
  | [], _ => Config.unlistedWord
  | c :: m, i => if c.1 = i then c.2 else Memory.read m i

/-- No entry for the index. -/
def Memory.erase (m : Memory) (i : Nat) : Memory := m.filter fun c => c.1 != i

/-- Insert before the first larger index. -/
def Memory.insert : Memory → Nat → Word → Memory
  | [], i, v => [(i, v)]
  | c :: m, i, v => if i < c.1 then (i, v) :: c :: m else c :: Memory.insert m i v

/-- Write a whole word; writing what an unlisted word holds removes the entry. -/
def Memory.write (m : Memory) (i : Nat) (v : Word) : Memory :=
  if v = Config.unlistedWord then Memory.erase m i else Memory.insert (Memory.erase m i) i v

/-- The canonical form: indices strictly rising. -/
def Memory.rising : Memory → Bool
  | [] => true
  | [_] => true
  | c :: d :: m => decide (c.1 < d.1) && Memory.rising (d :: m)

/-- The canonical form of a 16-word memory: indices strictly rising and below 16, no entry 0 (log 2). -/
def Memory.wf (m : Memory) : Bool :=
  Memory.rising m && m.all fun c => decide (c.1 < 16) && c.2 != Config.unlistedWord

/-- `IFetch(a)`: defined only below word index 16 (R64, R65). -/
def iFetch (im : Memory) (a : Word) : Result Word :=
  if wordIndex a < Config.imemWords then .next (Memory.read im (wordIndex a)) else .fault (.fetchOutOfRange a)

/-- `MemRead(a, 4)`: the whole word that holds the addressed byte; defined only below word index 16
(R10, R63, R66). -/
def memRead (dm : Memory) (a : Word) : Result Word :=
  if wordIndex a < Config.dmemWords then .next (Memory.read dm (wordIndex a))
  else .fault (.dataAddressOutOfRange a)

/-- `MemWrite(a, 4, v)`: same definedness (R10, R63, R66). -/
def memWrite (dm : Memory) (a : Word) (v : Word) : Result Memory :=
  if wordIndex a < Config.dmemWords then .next (Memory.write dm (wordIndex a) v)
  else .fault (.dataAddressOutOfRange a)

/-! ## The register file (R20 to R23) -/

/-- `read-register(n)`; a number of 8 to 31, which among well-formed words only a `halt` can spell, reads as 0
(R146, decision D34; log 12). -/
def readReg (x : Vector Word 8) (n : RegNum) : Word :=
  if h : n.toNat < 8 then x[n.toNat] else 0

/-- `write-register(n, v)`: unconditional, no register is hardwired (R20, R21); 8 to 31 name no register
(R23; log 7). -/
def writeReg (x : Vector Word 8) (n : RegNum) (v : Word) : Result (Vector Word 8) :=
  if h : n.toNat < 8 then .next (x.set n.toNat v) else .refused (.noSuchRegister n)

/-! ## Events (R255 to R258) -/

/-- The stall, branch and misprediction events of one cycle; the cycle event is 1 in every cycle (R255). -/
structure Events where
  stalls : Nat
  branches : Nat
  mispredicts : Nat
  deriving DecidableEq, Repr

/-- No event. -/
def Events.none : Events := ⟨0, 0, 0⟩

/-- The observation that ends a run: a `halt` in MW at the start of the cycle (R160). -/
def halted (s : State) : Bool := isHalt s.mw.instr

end Sys2Proof.Machine
end

