-- ==== Sys2Proof/Machine/Operands.lean ====
section
/-! DEFINITION. Every operand form: the two forwarding muxes (42_hazards_forwarding.md R185, R187), the operands
Decode captures (41_pipeline_stages.md R146 to R148) and the operands Execute uses (R151 to R153). -/

namespace Sys2Proof.Machine

/-- The Decode mux `fwdID`, fed from MW only (R185). -/
def fwdID (s : State) (r : RegNum) (v : Word) : Word :=
  if isAlu s.mw.instr && s.mw.dest == r then s.mw.aluResult
  else if isLw s.mw.instr && s.mw.dest == r then s.mw.memData
  else v

/-- The Execute mux `fwdEX`: EM before MW, the younger source wins (R187, R188). -/
def fwdEX (s : State) (r : RegNum) (v : Word) : Word :=
  if isAlu s.em.instr && s.em.dest == r then s.em.aluResult
  else if isAlu s.mw.instr && s.mw.dest == r then s.mw.aluResult
  else if isLw s.mw.instr && s.mw.dest == r then s.mw.memData
  else v

/-- The value Decode captures for a register number: the start-of-cycle file through `fwdID` (R146, R186). -/
def decodeOperand (s : State) (r : RegNum) : Word := fwdID s r (readReg s.x r)

/-- The destination field Decode forms: `rd` for opcode 0, else `rt` (R148). -/
def destOf (w : Word) : RegNum := if opcode w = 0 then rdOf w else rtOf w

/-- The branch target as a byte address, `4 * zext_32(imm)` modulo 2^32 (R147, R206). -/
def branchTarget (imm : Imm16) : Word := 4 * zext32 imm

/-- Operand a of `add`, `sub`, `bne` in Execute (R151, R153, R189). -/
def operandA (s : State) : Word := fwdEX s s.de.rs s.de.valA

/-- Operand b of `add`, `sub`, `bne`, and the value a `sw` stores (R151 to R153, R189). -/
def operandB (s : State) : Word := fwdEX s s.de.rt s.de.valB

/-- The effective address of `lw` and `sw`: the base is used as Decode captured it, not forwarded in Execute
(R152, R190). -/
def effectiveAddress (s : State) : Word := s.de.imm + s.de.valA

end Sys2Proof.Machine
end

