-- ==== Sys2Proof/Machine/Flags.lean ====
section
/-! DEFINITION. The hardware has no flags (10_state.md R27). What stands in their place: the comparison of a `bne`
and the 2-bit saturating predictor (43_branch_prediction.md R200 to R208). -/

namespace Sys2Proof.Machine

/-- `predT(c)`: predict taken only when the counter is 3 (R202). -/
def predT (c : PredCounter) : Bool := c == 3

/-- A `bne` is taken iff `a - b` is not 0 (R207). -/
def branchTaken (a b : Word) : Bool := a - b != 0

/-- `min(CTR + 1, 3)` (R208). -/
def ctrUp (c : PredCounter) : PredCounter := if c = 3 then 3 else c + 1

/-- `max(CTR - 1, 0)` (R208). -/
def ctrDown (c : PredCounter) : PredCounter := if c = 0 then 0 else c - 1

/-- The update of a resolved `bne`; the decrement does not depend on the prediction (R208). -/
def ctrUpdate (taken : Bool) (c : PredCounter) : PredCounter := if taken then ctrUp c else ctrDown c

/-- `taken` of the `bne` in Execute (R207). -/
def taken (s : State) : Bool := branchTaken (operandA s) (operandB s)

end Sys2Proof.Machine
end

