-- ==== Sys2Proof/Machine/Stages.lean ====
section
/-! DEFINITION. What every cycle does around the instruction in Execute: Writeback, Memory, Decode, Fetch, the hazard
detector and the commit (41_pipeline_stages.md R140 to R159, 42_hazards_forwarding.md R182). Every function reads
only the start-of-cycle state (R141) and the parts become current at once (R142). -/

namespace Sys2Proof.Machine

/-! ## Writeback (R156, R157) -/

/-- The register file after this cycle's Writeback. -/
def writebackStage (s : State) : Result (Vector Word 8) :=
  if isLw s.mw.instr then writeReg s.x s.mw.dest s.mw.memData
  else if isAlu s.mw.instr then writeReg s.x s.mw.dest s.mw.aluResult
  else .next s.x

/-! ## Memory (R154, R155) -/

/-- What the Memory stage gives: MW' and DM'. -/
structure MemOut where
  mw : MW
  dm : Memory
  deriving DecidableEq, Repr

/-- `lw` reads a word, `sw` writes one, `add`, `sub`, `bne`, `halt` pass through, a bubble stays a bubble. -/
def memoryStage (s : State) : Result MemOut :=
  let w := s.em.instr
  if isNoop w then .next ⟨MW.bubble, s.dm⟩
  else if isLw w then
    andThen (memRead s.dm s.em.aluResult) fun v => .next ⟨⟨w, s.em.aluResult, v, s.em.dest⟩, s.dm⟩
  else if isSw w then
    andThen (memWrite s.dm s.em.aluResult s.em.storeData) fun dm => .next ⟨⟨w, s.em.aluResult, 0, 0⟩, dm⟩
  else .next ⟨⟨w, s.em.aluResult, 0, s.em.dest⟩, s.dm⟩

/-! ## Decode (R146 to R150) -/

/-- The Decode candidate for a fetch latch, in the register file and MW of `s` (R149). -/
def decodeStage (s : State) (fd : FD) : DE :=
  let w := fd.instr
  if isNoop w then DE.bubble
  else { instr := w, pcPlus4 := fd.pcPlus4, rs := rsOf w, rt := rtOf w, rd := rdOf w,
         imm := zext32 (immOf w), target := branchTarget (immOf w),
         valA := decodeOperand s (rsOf w), valB := decodeOperand s (rtOf w),
         dest := destOf w, pred := fd.pred }

/-- The hazard detector: the producer is neither a no-op, halt, branch nor R-type, and the raw `rs` or `rt` of
the word in FD, whatever its opcode, is its destination field (R182, R183). -/
def stall (s : State) : Bool :=
  let p := s.de.instr
  !isNoop p && opcode p != 63 && opcode p != 4 && opcode p != 0 &&
    (rsOf s.fd.instr == s.de.dest || rtOf s.fd.instr == s.de.dest)

/-- The speculative redirect of a `bne` in Decode predicted taken by the value it carries (R150, R205). -/
def idRedirect (s : State) : Bool := !stall s && isBne s.fd.instr && predT s.fd.pred

/-! ## Fetch and commit (R145, R158) -/

/-- The next PC, FD and DE and the events Decode counts. -/
structure Front where
  pc : Word
  fd : FD
  de : DE
  events : Events
  deriving DecidableEq, Repr

/-- The fetch candidate (R145). -/
def fetchStage (s : State) : Result FD :=
  andThen (iFetch s.im s.pc) fun w => .next ⟨w, s.pc + 4, s.ctr⟩

/-- Who wins PC', FD' and DE': Execute redirect, stall, Decode redirect, sequential (R158). The fetched word is
needed only in the last case (R65). -/
def commit (s : State) (exRedirect : Option Word) : Result Front :=
  match exRedirect with
  | some t => .next ⟨t, FD.bubble, DE.bubble, Events.none⟩
  | none =>
    if stall s then .next ⟨s.pc, s.fd, DE.bubble, ⟨1, 0, 0⟩⟩
    else if idRedirect s then
      .next ⟨(decodeStage s s.fd).target, FD.bubble, decodeStage s s.fd, ⟨1, 1, 0⟩⟩
    else andThen (fetchStage s) fun fd => .next ⟨s.pc + 4, fd, decodeStage s s.fd, Events.none⟩

/-! ## The cycle -/

/-- What the instruction in Execute gives: EM', `ex_redirect`, CTR' and its events (R151 to R153, R207 to R213). -/
structure ExOut where
  em : EM
  redirect : Option Word
  ctr : PredCounter
  events : Events
  deriving DecidableEq, Repr

/-- An instruction that changes nothing but EM' in Execute (R153). -/
def ExOut.plain (s : State) (em : EM) : ExOut := ⟨em, none, s.ctr, Events.none⟩

/-- The next state from the outputs of the stages; IM never changes, CYCLES counts one (R159, R255). -/
def assemble (s : State) (ex : ExOut) (x : Vector Word 8) (m : MemOut) (f : Front) : State where
  pc := f.pc
  x := x
  im := s.im
  dm := m.dm
  ctr := ex.ctr
  fd := f.fd
  de := f.de
  em := ex.em
  mw := m.mw
  cycles := s.cycles + 1
  stalls := s.stalls + (ex.events.stalls + f.events.stalls)
  branches := s.branches + (ex.events.branches + f.events.branches)
  mispredicts := s.mispredicts + (ex.events.mispredicts + f.events.mispredicts)

/-- One clock cycle, given what Execute does in it. A Memory-stage outcome is reported before a fetch outcome
(R230, R248; log 9). -/
def cycle (s : State) (ex : ExOut) : Result State :=
  andThen (writebackStage s) fun x =>
  andThen (memoryStage s) fun m =>
  andThen (commit s ex.redirect) fun f =>
  .next (assemble s ex x m f)

end Sys2Proof.Machine
end

