-- ==== Sys2Proof/Machine/Admission.lean ====
section
/-! DEFINITION. Which states the cycle function is defined on (45_cycle_reference.md R230): every word of IM is
well-formed, the launch premise of 30_encoding.md R101 (log 8), and so is every word in a latch (log 6). -/

namespace Sys2Proof.Machine

/-- The first ill-formed listed word of an instruction memory; unlisted words are `noop`s (R101, decision D22). -/
def firstReserved (im : Memory) : Option (Nat × Word) := im.find? fun c => !wellFormedWord c.2

/-- `WellFormedIM` (R273). -/
def wellFormedIM (im : Memory) : Bool := (firstReserved im).isNone

/-- The instruction that stands in Execute, or why the cycle function is not defined on the state. -/
def instrInExecute (s : State) : Except Refusal Instr :=
  match firstReserved s.im with
  | some c => .error (.reservedInstruction c.1 c.2)
  | none =>
    match [s.fd.instr, s.em.instr, s.mw.instr].find? fun w => !wellFormedWord w with
    | some w => .error (.reservedLatchWord w)
    | none =>
      match decode s.de.instr with
      | .ok i => .ok i
      | .error _ => .error (.reservedLatchWord s.de.instr)

/-- DE holding the word `w` as Decode would have passed it on, had it been fetched at PC (log 1). -/
def issuedLatch (s : State) (w : Word) : DE := decodeStage s ⟨w, s.pc + 4, s.ctr⟩

end Sys2Proof.Machine
end

