-- ==== Sys2Proof/Machine/Arithmetic.lean ====
section
/-! DEFINITION. `add` and `sub` in Execute (41_pipeline_stages.md R151, 40_instructions.md R121, R122, R128). -/

namespace Sys2Proof.Machine

/-- EM' of an `add` or `sub` with its ALU result. -/
def aluOut (s : State) (result : Word) : EM := ⟨s.de.instr, result, 0, s.de.dest⟩

/-- The cycle in which an `add` is in Execute: both operands through `fwdEX`, sum modulo 2^32. -/
def execAdd (s : State) : Result State := cycle s (ExOut.plain s (aluOut s (operandA s + operandB s)))

/-- The cycle in which a `sub` is in Execute: difference modulo 2^32. -/
def execSub (s : State) : Result State := cycle s (ExOut.plain s (aluOut s (operandA s - operandB s)))

end Sys2Proof.Machine
end

