-- ==== Sys2Proof/Machine/Control.lean ====
section
/-! DEFINITION. `bne`, `halt` and `noop` in Execute (41_pipeline_stages.md R153, 43_branch_prediction.md R207 to R214). -/

namespace Sys2Proof.Machine

/-- `ex_redirect` of the `bne` in Execute: the target when taken and not predicted taken (R209), the branch's own
fall-through when not taken and predicted taken (R211), none otherwise (R210, R212). -/
def bneRedirect (s : State) : Option Word :=
  if taken s then (if predT s.de.pred then none else some s.de.target)
  else (if predT s.de.pred then some s.de.pcPlus4 else none)

/-- The Execute-stage events of a `bne` (R209 to R214): a stall when taken, a branch when not predicted taken, a
misprediction when the direction differs from the carried prediction. -/
def bneEvents (s : State) : Events where
  stalls := if taken s then 1 else 0
  branches := if predT s.de.pred then 0 else 1
  mispredicts := if taken s = predT s.de.pred then 0 else 1

/-- What a `bne` does in Execute (R153, R207, R208). -/
def bneOut (s : State) : ExOut where
  em := ⟨s.de.instr, operandA s - operandB s, 0, 0⟩
  redirect := bneRedirect s
  ctr := ctrUpdate (taken s) s.ctr
  events := bneEvents s

/-- The cycle in which a `bne` is in Execute. -/
def execBne (s : State) : Result State := cycle s (bneOut s)

/-- The cycle in which a `halt` is in Execute: zero ALU result and destination (R153). It ends the run two cycles
later, in MW (R160). -/
def execHalt (s : State) : Result State := cycle s (ExOut.plain s ⟨s.de.instr, 0, 0, 0⟩)

/-- The cycle in which a `noop` or a bubble is in Execute (R153). -/
def execNoop (s : State) : Result State := cycle s (ExOut.plain s EM.bubble)

end Sys2Proof.Machine
end

