-- ==== Sys2Proof/Machine/LoadStore.lean ====
section
/-! DEFINITION. `lw` and `sw` in Execute (41_pipeline_stages.md R152, 40_instructions.md R123, R124); their data access
is the Memory stage of the next cycle (R154). -/

namespace Sys2Proof.Machine

/-- The cycle in which a `lw` is in Execute: the address is `DE.imm + DE.valA`. -/
def execLw (s : State) : Result State :=
  cycle s (ExOut.plain s ⟨s.de.instr, effectiveAddress s, 0, s.de.dest⟩)

/-- The cycle in which a `sw` is in Execute: the same address, and the value to store through `fwdEX`. -/
def execSw (s : State) : Result State :=
  cycle s (ExOut.plain s ⟨s.de.instr, effectiveAddress s, operandB s, 0⟩)

end Sys2Proof.Machine
end

