-- ==== Sys2Proof/Machine/Dispatch.lean ====
section
/-! DEFINITION. exec: the clock cycle in which instruction i stands in Execute, one arm per constructor. The meanings
take register numbers, immediate, target and captured values from the latch DE, where Decode has put them
(10_state.md R42, 41_pipeline_stages.md R151 to R153; log 11). -/

namespace Sys2Proof.Machine

def exec (i : Instr) (s : State) : Host.Outcome State Fault Refusal :=
  match i with
  | .add _ _ _ => Sys2Proof.Machine.execAdd s
  | .sub _ _ _ => Sys2Proof.Machine.execSub s
  | .lw _ _ _ => Sys2Proof.Machine.execLw s
  | .sw _ _ _ => Sys2Proof.Machine.execSw s
  | .bne _ _ _ => Sys2Proof.Machine.execBne s
  | .halt _ => Sys2Proof.Machine.execHalt s
  | .noop => Sys2Proof.Machine.execNoop s

end Sys2Proof.Machine
end

