-- ==== Sys2Proof/Machine/Step.lean ====
section
/-! DEFINITION. step: one clock cycle (41_pipeline_stages.md R140). It decodes the word in the decode_execute_latch and
runs exec of it. -/

namespace Sys2Proof.Machine

/-- One application of the cycle function. A halted state is final (R160; log 5); a state with a reserved word is
outside the function's domain (R101, R230; logs 6 and 8). -/
def step (s : State) : Host.Outcome State Fault Refusal :=
  if halted s then .fault .halted
  else match instrInExecute s with
    | .error r => .refused r
    | .ok i => exec i s

/-- The state with the 32-bit word `w` put where the next step takes the instruction it runs: DE, as Fetch at PC and
Decode in this state would have latched it two cycles earlier (log 1). Nothing else changes. -/
def State.withFetchWord (s : State) (nbits w : Nat) : State :=
  { s with de := issuedLatch s (BitVec.ofNat 32 (w % 2 ^ nbits)) }

end Sys2Proof.Machine
end

