-- ==== Sys2Proof/Machine/Run.lean ====
section
/-! DEFINITION. The run function (45_cycle_reference.md R231; 70_reset_and_hazards.md R270) under fuel, since the
hardware has no timeout (41_pipeline_stages.md R163). -/

namespace Sys2Proof.Machine

/-- Apply the cycle function until the halt observation. A run cut short by the fuel answers none. -/
def runToHalt : Nat → State → Option (Result State)
  | 0, s => if halted s then some (.next s) else none
  | k + 1, s =>
    if halted s then some (.next s)
    else match step s with
      | .next t => runToHalt k t
      | .fault e => some (.fault e)
      | .refused e => some (.refused e)

/-- `run(IM_INIT, DM_INIT, R_INIT, PRED_RESET)`: refuse an ill-formed program, else run from the launch state
(R231, R246). -/
def runProgram (fuel : Nat) (p : Launch) : Option (Result State) :=
  match firstReserved p.im with
  | some c => some (.refused (.reservedInstruction c.1 c.2))
  | none => runToHalt fuel (State.launch p)

end Sys2Proof.Machine
end

