-- ==== Sys2Proof/Machine/Reference.lean ====
section
/-! DEFINITION. The instruction-level reference execution (40_instructions.md R120 to R127) and, apart from it, the
software rule under which the pipeline delivers its result (70_reset_and_hazards.md R280). It is not the machine:
`step` is. -/

namespace Sys2Proof.Machine

/-- What an instruction changes when taken alone, in program order. -/
structure Arch where
  pc : Word
  x : Vector Word 8
  dm : Memory
  deriving DecidableEq, Repr

/-- The effective address of a `lw` or `sw` (R123, R124). -/
def Arch.address (a : Arch) (imm : Imm16) (rs : RegNum) : Word := readReg a.x rs + zext32 imm

/-- The pseudocode of each instruction (R121 to R127); `halt` stops. -/
def refExec (i : Instr) (a : Arch) : Result Arch :=
  match i with
  | .add rd rs rt =>
    andThen (writeReg a.x rd (readReg a.x rs + readReg a.x rt)) fun x => .next { a with x := x, pc := a.pc + 4 }
  | .sub rd rs rt =>
    andThen (writeReg a.x rd (readReg a.x rs - readReg a.x rt)) fun x => .next { a with x := x, pc := a.pc + 4 }
  | .lw rt imm rs =>
    andThen (memRead a.dm (a.address imm rs)) fun v =>
    andThen (writeReg a.x rt v) fun x => .next { a with x := x, pc := a.pc + 4 }
  | .sw rt imm rs =>
    andThen (memWrite a.dm (a.address imm rs) (readReg a.x rt)) fun dm => .next { a with dm := dm, pc := a.pc + 4 }
  | .bne rs rt imm =>
    .next { a with pc := if readReg a.x rs != readReg a.x rt then branchTarget imm else a.pc + 4 }
  | .halt _ => .fault .halted
  | .noop => .next { a with pc := a.pc + 4 }

/-- The instruction the reference takes next: the word at `pc`, decoded. A fetch out of range and a reserved word are
the model outcomes they are to the pipeline (R246). -/
def refFetch (im : Memory) (a : Arch) : Result Instr :=
  andThen (iFetch im a.pc) fun w =>
  match decode w with
  | .ok i => .next i
  | .error _ => .refused (.reservedInstruction (wordIndex a.pc) w)

/-- One round of the loop of R120. -/
def refStep (im : Memory) (a : Arch) : Result Arch := andThen (refFetch im a) fun i => refExec i a

/-- The instruction-level reference execution of R120, for every program, whether or not it keeps the base-register
rule: round after round until a `halt` is taken, whose state is the answer, or a model outcome arises (R246). A run
cut short by the fuel, one unit a round, answers none. -/
def refRun (im : Memory) : Nat → Arch → Option (Result Arch)
  | 0, _ => none
  | k + 1, a =>
    match refStep im a with
    | .next b => refRun im k b
    | .fault .halted => some (.next a)
    | .fault e => some (.fault e)
    | .refused e => some (.refused e)

/-- Where the reference execution of a launch starts: `pc = 0`, `x = R_INIT`, `DM = DM_INIT` (R120). -/
def Arch.launch (p : Launch) : Arch := ⟨Config.pcReset, p.x, p.dm⟩

/-- The reference execution of a launch (R120). -/
def refProgram (fuel : Nat) (p : Launch) : Option (Result Arch) := refRun p.im fuel (Arch.launch p)

/-! ## The proviso of R120: the base-register rule (R280) -/

/-- The register an instruction writes (R21). -/
def writtenReg : Instr → Option RegNum
  | .add rd _ _ => some rd
  | .sub rd _ _ => some rd
  | .lw rt _ _ => some rt
  | .sw _ _ _ => none
  | .bne _ _ _ => none
  | .halt _ => none
  | .noop => none

/-- The base register of a `lw` or `sw` (R123, R124). -/
def baseReg : Instr → Option RegNum
  | .add _ _ _ => none
  | .sub _ _ _ => none
  | .lw _ _ rs => some rs
  | .sw _ _ rs => some rs
  | .bne _ _ _ => none
  | .halt _ => none
  | .noop => none

/-- The base-register rule at one instruction (R280): neither of the two instructions executed immediately before
it (what they wrote, the nearer first) writes its base. -/
def keepsBaseRule (i : Instr) (w1 w2 : Option RegNum) : Bool :=
  match baseReg i with
  | some r => w1 != some r && w2 != some r
  | none => true

/-- The base-register rule at each of the next instructions of the reference execution, as many as the fuel says, given
what the two instructions before wrote (R280). -/
def keepsBaseRuleFrom (im : Memory) : Nat → Option RegNum → Option RegNum → Arch → Bool
  | 0, _, _, _ => true
  | k + 1, w1, w2, a =>
    match refFetch im a with
    | .fault _ => true
    | .refused _ => true
    | .next i =>
      keepsBaseRule i w1 w2 &&
        match refExec i a with
        | .next b => keepsBaseRuleFrom im k (writtenReg i) w1 b
        | .fault _ => true
        | .refused _ => true

/-- The first `n` instructions of a launch's reference execution keep the base-register rule (R280). -/
def Launch.keepsBaseRule (p : Launch) (n : Nat) : Bool := keepsBaseRuleFrom p.im n none none (Arch.launch p)

end Sys2Proof.Machine
end

