-- ==== Sys2Proof/Safety.lean ====
section
/-! DEFINITION. The terms claims are stated in: the launch premises (70_reset_and_hazards.md R273), the invariants of
reachable states (10_state.md R26, R45, R46), when a cycle completes (60_exceptions.md R246), what a cycle changes and
leaves alone, and the value program order gives a register (42_hazards_forwarding.md R191). -/

namespace Sys2Proof.Machine

/-! ## Launch premises -/

/-- The launch parameters are 16-word memories in canonical form and `WellFormedIM` holds; `PredInRange` holds by
type and `LatchesClean` by construction (R273). -/
def Launch.ok (p : Launch) : Bool := Memory.wf p.im && Memory.wf p.dm && wellFormedIM p.im

/-! ## Invariants of reachable states -/

/-- The word belongs to one of the two instruction kinds that write a register (R181). -/
def writesRegister (w : Word) : Bool := isAlu w || isLw w

/-- The latch DE carries the fields of its word: the DE part of R46, and R148 for `dest`. -/
structure DE.Consistent (de : DE) : Prop where
  rs : de.rs = rsOf de.instr
  rt : de.rt = rtOf de.instr
  rd : de.rd = rdOf de.instr
  imm : de.imm = zext32 (immOf de.instr)
  target : de.target = branchTarget (immOf de.instr)
  dest : de.dest = destOf de.instr

/-- Instruction `i` stands in Execute: DE holds its word and its fields. -/
def DE.Holds (de : DE) (i : Instr) : Prop := de.instr = encode i ∧ de.Consistent

/-- What R26, R45 and R46 say of every reachable state, with the facts they rest on: the memories keep their
canonical form, every word in IM and in the latches is well-formed, and behind a `bne` that was predicted taken FD
holds the bubble of its own redirect (R256). -/
structure Invariant (s : State) : Prop where
  pcAligned : s.pc.toNat % 4 = 0
  fdAligned : s.fd.pcPlus4.toNat % 4 = 0
  deAligned : s.de.pcPlus4.toNat % 4 = 0
  imCanonical : Memory.wf s.im = true
  dmCanonical : Memory.wf s.dm = true
  imWords : wellFormedIM s.im = true
  fdWord : wellFormedWord s.fd.instr = true
  deWord : wellFormedWord s.de.instr = true
  emWord : wellFormedWord s.em.instr = true
  mwWord : wellFormedWord s.mw.instr = true
  deBubble : s.de.instr = 0 → s.de = DE.bubble
  emBubble : s.em.instr = 0 → s.em = EM.bubble
  mwBubble : s.mw.instr = 0 → s.mw = MW.bubble
  deFields : s.de.Consistent
  emNamed : s.em.dest.toNat < 8
  mwNamed : s.mw.dest.toNat < 8
  emAlu : isAlu s.em.instr = true → s.em.dest = rdOf s.em.instr
  emLw : isLw s.em.instr = true → s.em.dest = rtOf s.em.instr
  mwAlu : isAlu s.mw.instr = true → s.mw.dest = rdOf s.mw.instr
  mwLw : isLw s.mw.instr = true → s.mw.dest = rtOf s.mw.instr
  redirected : isBne s.de.instr = true → predT s.de.pred = true → s.fd = FD.bubble

/-! ## When a cycle completes -/

/-- Every word the cycle function looks at is well-formed: the domain of R230. -/
def wordsOk (s : State) : Bool :=
  wellFormedIM s.im && wellFormedWord s.fd.instr && wellFormedWord s.em.instr && wellFormedWord s.mw.instr

/-- Writeback names a register, if it writes one. -/
def writebackNamed (s : State) : Bool := !writesRegister s.mw.instr || decide (s.mw.dest.toNat < 8)

/-- The `lw` or `sw` in EM, if there is one, stays below word index 16 (R66). -/
def dataInRange (s : State) : Bool :=
  !(isLw s.em.instr || isSw s.em.instr) || decide (wordIndex s.em.aluResult < 16)

/-- The fetched word would not be latched, or PC is in range (R65); for a cycle without an Execute redirect. -/
def fetchInRange (s : State) : Bool := stall s || idRedirect s || decide (wordIndex s.pc < 16)

/-- `ex_redirect` of the cycle: only a `bne` in Execute has one (R207). -/
def exRedirect (s : State) : Option Word := if isBne s.de.instr then bneRedirect s else none

/-! ## What a cycle changes and leaves alone -/

/-- The register file: only the destination of the `lw` or `add`/`sub` in MW changes (R156, R157). -/
def RegistersWrittenBack (s t : State) : Prop :=
  ∀ r : RegNum, r.toNat < 8 → readReg t.x r =
    if isLw s.mw.instr = true ∧ s.mw.dest = r then s.mw.memData
    else if isAlu s.mw.instr = true ∧ s.mw.dest = r then s.mw.aluResult
    else readReg s.x r

/-- Data memory: only the word a `sw` in EM addresses changes; every other word reads as before (R154). -/
def DataMemoryStored (s t : State) : Prop :=
  ∀ a : Nat, Memory.read t.dm a =
    if isSw s.em.instr = true ∧ wordIndex s.em.aluResult = a then s.em.storeData else Memory.read s.dm a

/-- MW' as the Memory stage forms it (R154). -/
def mwNext (s : State) : MW :=
  if s.em.instr = 0 then MW.bubble
  else { instr := s.em.instr, aluResult := s.em.aluResult,
         memData := if isLw s.em.instr then Memory.read s.dm (wordIndex s.em.aluResult) else 0,
         dest := if isSw s.em.instr then 0 else s.em.dest }

/-- What every cycle does behind Execute, whatever instruction stands there: Writeback and Memory advance, IM is
unchanged, CYCLES counts one. -/
structure BackAdvances (s t : State) : Prop where
  registers : RegistersWrittenBack s t
  dataMemory : DataMemoryStored s t
  mw : t.mw = mwNext s
  im : t.im = s.im
  cycles : t.cycles = s.cycles + 1

/-- PC', FD', DE' without an Execute redirect: stall, Decode redirect, sequential (R158 cases 2 to 4). -/
def FrontAdvances (s t : State) : Prop :=
  if stall s = true then t.pc = s.pc ∧ t.fd = s.fd ∧ t.de = DE.bubble
  else if idRedirect s = true then
    t.pc = branchTarget (immOf s.fd.instr) ∧ t.fd = FD.bubble ∧ t.de = decodeStage s s.fd
  else t.pc = s.pc + 4 ∧ t.fd = ⟨Memory.read s.im (wordIndex s.pc), s.pc + 4, s.ctr⟩ ∧ t.de = decodeStage s s.fd

/-- PC', FD', DE' under an Execute redirect (R158 case 1). -/
def FrontSquashed (s t : State) (target : Word) : Prop :=
  exRedirect s = some target ∧ t.pc = target ∧ t.fd = FD.bubble ∧ t.de = DE.bubble

/-- What Decode adds to STALLS when Execute does not redirect (R158). -/
def decodeStalls (s : State) : Nat := if stall s || idRedirect s then 1 else 0

/-- What Decode adds to BRANCHES when Execute does not redirect (R158). -/
def decodeBranches (s : State) : Nat := if idRedirect s then 1 else 0

/-- A cycle whose Execute stage changes nothing but EM': the predictor and MISPREDICTS are unchanged, the front
advances, and STALLS and BRANCHES count Decode's events only. -/
structure PlainCycle (s t : State) : Prop where
  back : BackAdvances s t
  front : FrontAdvances s t
  ctr : t.ctr = s.ctr
  stalls : t.stalls = s.stalls + decodeStalls s
  branches : t.branches = s.branches + decodeBranches s
  mispredicts : t.mispredicts = s.mispredicts

/-! ## Program order -/

/-- The value of a register after the instructions in MW and EM have completed: what program order gives the
instruction in DE (R191). -/
def programOrderValue (s : State) (r : RegNum) : Word :=
  if isAlu s.em.instr && s.em.dest == r then s.em.aluResult
  else if isLw s.em.instr && s.em.dest == r then Memory.read s.dm (wordIndex s.em.aluResult)
  else decodeOperand s r

/-- The register operands Execute uses through `fwdEX` are those program order gives: both of an `add`, `sub` or
`bne`, the stored value of a `sw` (R189, R191). -/
structure OperandsFresh (s : State) : Prop where
  operands : isAlu s.de.instr = true ∨ isBne s.de.instr = true →
    operandA s = programOrderValue s s.de.rs ∧ operandB s = programOrderValue s s.de.rt
  stored : isSw s.de.instr = true → operandB s = programOrderValue s s.de.rt

/-- The 1 that a `bne` in DE counted at Decode, because it was predicted taken, is still to be scored (R213). -/
def countedInFlight (s : State) : Nat := if isBne s.de.instr && predT s.de.pred then 1 else 0

end Sys2Proof.Machine
end

