-- ==== Sys2Proof/Certificates/Slice0/Obligations.lean ====
section
/-! DEFINITION. The statements for the provers: what the numbered rules of spec/ say the instructions, the stages and the
whole machine do. The vocabulary is that of Sys2Proof/Safety.lean. -/

open Sys2Proof Sys2Proof.Machine

/-! ## Encoding -/

/-- Decode and encode agree on every well-formed instruction, every operand at every value (30_encoding.md
sections 2 and 4). -/
def Obligations.DecodeOfEncodeIsIdentity : Prop :=
  ∀ i : Instr, i.wf = true → decode (encode i) = .ok i

/-- Each well-formed word has one meaning and no bit of it is dropped: encoding what was decoded gives the word
back, the unused bits of a `halt` included (30_encoding.md sections 2 and 4). -/
def Obligations.EncodeOfDecodeIsIdentity : Prop :=
  ∀ (w : Word) (i : Instr), decode w = .ok i → encode i = w ∧ i.wf = true

/-- R100: which words are well-formed, and that they are the words the seven mnemonics produce. -/
def Obligations.DecodableWordsAreTheWellFormedWords : Prop :=
  ∀ w : Word,
    (wellFormedWord w = true ↔
      w = 0 ∨ opcode w = 63 ∨
      (opcode w = 0 ∧ shamtOf w = 0 ∧ (functOf w = 32 ∨ functOf w = 34) ∧
        (rsOf w).toNat < 8 ∧ (rtOf w).toNat < 8 ∧ (rdOf w).toNat < 8) ∨
      ((opcode w = 35 ∨ opcode w = 43 ∨ opcode w = 4) ∧ (rsOf w).toNat < 8 ∧ (rtOf w).toNat < 8)) ∧
    (wellFormedWord w = true ↔ ∃ i : Instr, i.wf = true ∧ encode i = w)

/-- 30_encoding.md section 4 with decision D23 (the spec's own): a word is well-formed exactly when it matches a row
of the opcode table under its strict mask, it matches no two rows, and the row is that of the decoded instruction. -/
def Obligations.OpcodeTableRowsAreDisjointAndComplete : Prop :=
  ∀ w : Word,
    (wellFormedWord w = true ↔ ∃ r ∈ opcodeTable, r.matchesStrictly w = true) ∧
    (∀ r ∈ opcodeTable, ∀ q ∈ opcodeTable, r.matchesStrictly w = true → q.matchesStrictly w = true → r = q) ∧
    (∀ i : Instr, decode w = .ok i → ∃ r, opcodeTable[i.row]? = some r ∧ r.matchesStrictly w = true)

/-- R12: what each class predicate says, and that exactly one of the seven holds of a well-formed word. -/
def Obligations.ClassPredicatesPartitionWellFormedWords : Prop :=
  ∀ w : Word,
    (isNoop w = true ↔ w = 0) ∧
    (isAlu w = true ↔ opcode w = 0 ∧ (functOf w = 32 ∨ functOf w = 34)) ∧
    (isAdd w = true ↔ isAlu w = true ∧ functOf w = 32) ∧
    (isSub w = true ↔ isAlu w = true ∧ functOf w = 34) ∧
    (isLw w = true ↔ opcode w = 35) ∧ (isSw w = true ↔ opcode w = 43) ∧
    (isBne w = true ↔ opcode w = 4) ∧ (isHalt w = true ↔ opcode w = 63) ∧
    (wellFormedWord w = true →
      [isNoop w, isAdd w, isSub w, isLw w, isSw w, isBne w, isHalt w].count true = 1)

/-- Sanity: words the spec writes out (40_instructions.md, 30_encoding.md section 2) decode to the instructions they
stand for. -/
def Obligations.SpecWordsDecode : Prop :=
  decode 0x00430820 = .ok (.add 1 2 3) ∧ decode 0x00813022 = .ok (.sub 6 4 1) ∧
  decode 0x8C010008 = .ok (.lw 1 8 0) ∧ decode 0xAC010004 = .ok (.sw 1 4 0) ∧
  decode 0x10200000 = .ok (.bne 1 0 0) ∧ decode 0xFC000000 = .ok (.halt 0) ∧ decode 0 = .ok .noop

/-- Decision D22 (the spec's own) and log 8: a program with an ill-formed word is refused for the first such word,
whether or not it would be reached, by the run function and by the step from its launch state. -/
def Obligations.ReservedProgramIsRefused : Prop :=
  ∀ (p : Launch) (n fuel : Nat), Memory.wf p.im = true → n < 16 →
    wellFormedWord (Memory.read p.im n) = false → (∀ k < n, wellFormedWord (Memory.read p.im k) = true) →
    step (State.launch p) = .refused (.reservedInstruction n (Memory.read p.im n)) ∧
    runProgram fuel p = some (.refused (.reservedInstruction n (Memory.read p.im n)))

/-! ## Launch and invariants -/

/-- 10_state.md section 8 (decisions D2 to D7, the spec's own): the launch state field by field, for every value of
the parameters; reset takes the defaults of logs 3 and 4, so every register reads 0. -/
def Obligations.LaunchStateFields : Prop :=
  (∀ p : Launch, (State.launch p).pc = 0 ∧ (State.launch p).x = p.x ∧ (State.launch p).im = p.im ∧
    (State.launch p).dm = p.dm ∧ (State.launch p).ctr = p.pred ∧
    (State.launch p).fd = ⟨0, 0, 0⟩ ∧ (State.launch p).de = ⟨0, 0, 0, 0, 0, 0, 0, 0, 0, 0, 0⟩ ∧
    (State.launch p).em = ⟨0, 0, 0, 0⟩ ∧ (State.launch p).mw = ⟨0, 0, 0, 0⟩ ∧
    (State.launch p).cycles = 0 ∧ (State.launch p).stalls = 0 ∧ (State.launch p).branches = 0 ∧
    (State.launch p).mispredicts = 0 ∧ halted (State.launch p) = false) ∧
  State.reset = State.launch {} ∧ (∀ r : RegNum, readReg State.reset.x r = 0) ∧
  (∀ n : Nat, Memory.read State.reset.im n = 0 ∧ Memory.read State.reset.dm n = 0)

/-- The invariant holds of every launch that meets the premises of 70_reset_and_hazards.md section 2, and of
State.reset. -/
def Obligations.LaunchMeetsInvariant : Prop :=
  (∀ p : Launch, p.ok = true → Invariant (State.launch p)) ∧ Invariant State.reset

/-- Every cycle keeps the invariant: PC stays a multiple of 4, a latch whose word is 0 is the bubble, every latch
carries the fields of its word, destinations name registers, memories stay canonical (10_state.md sections 2
and 7). -/
def Obligations.StepKeepsInvariant : Prop :=
  ∀ s t : State, Invariant s → step s = .next t → Invariant t

/-- Log 2 (the model's choice of representation): memories in canonical form that hold the same 16 words are the same
data. -/
def Obligations.CanonicalMemoriesWithEqualWordsAreEqual : Prop :=
  ∀ m n : Memory, Memory.wf m = true → Memory.wf n = true →
    (∀ i < 16, Memory.read m i = Memory.read n i) → m = n

/-! ## The step -/

/-- A step runs the decoded instruction: in a state that is not halted and holds no reserved word, when the word in
DE decodes to `i`, the step is `exec i` at that state (41_pipeline_stages.md sections 1 and 4; log 1). -/
def Obligations.StepRunsTheDecodedInstruction : Prop :=
  ∀ (s : State) (i : Instr), halted s = false → wordsOk s = true → decode s.de.instr = .ok i →
    step s = exec i s

/-- The word at the program counter is the one that Execute runs two cycles later, with nothing of it changed, when
neither a redirect nor a stall comes between (41_pipeline_stages.md sections 1 to 3). -/
def Obligations.FetchedWordIsExecutedTwoCyclesLater : Prop :=
  ∀ (s t u : State) (w : Word), step s = .next t → step t = .next u →
    exRedirect s = none → stall s = false → idRedirect s = false → exRedirect t = none → stall t = false →
    w = Memory.read s.im (wordIndex s.pc) →
    t.fd.instr = w ∧ u.de.instr = w ∧ u.de.Consistent ∧
    (w ≠ 0 → u.de.pcPlus4 = s.pc + 4 ∧ u.de.pred = s.ctr) ∧
    (halted u = false → ∃ i, decode w = .ok i ∧ step u = exec i u)

/-- Log 1: the very next step after `withFetchWord` runs the given word, and nothing but DE has changed. -/
def Obligations.WithFetchWordRunsTheWord : Prop :=
  ∀ (s : State) (w : Nat) (i : Instr), w < 2 ^ 32 → halted s = false → wordsOk s = true →
    decodeTableWord 32 w = some i →
    (s.withFetchWord 32 w).de.Holds i ∧ step (s.withFetchWord 32 w) = exec i (s.withFetchWord 32 w) ∧
    s.withFetchWord 32 w = { s with de := (s.withFetchWord 32 w).de }

/-- When a cycle completes and when it ends in a model outcome, in every state that meets the invariant
(60_exceptions.md section 1, decisions D20 and D21, the spec's own; the order of two outcomes is log 9). -/
def Obligations.StepOutcomes : Prop :=
  ∀ s : State, Invariant s → halted s = false →
    (dataInRange s = false → step s = .fault (.dataAddressOutOfRange s.em.aluResult)) ∧
    (dataInRange s = true → exRedirect s = none → fetchInRange s = false →
      step s = .fault (.fetchOutOfRange s.pc)) ∧
    (dataInRange s = true → exRedirect s ≠ none ∨ fetchInRange s = true → ∃ t, step s = .next t)

/-- Decision D26 (the spec's own) and log 5: a state is final exactly when a `halt` word is in MW, and the step says
so of no other state. -/
def Obligations.HaltedStateIsFinal : Prop :=
  ∀ s : State, step s = .fault .halted ↔ isHalt s.mw.instr = true

/-! ## The stages -/

/-- R156, R157: Writeback in every cycle, and that Decode in the same cycle gets the new value. -/
def Obligations.WritebackWritesOnlyTheDestination : Prop :=
  ∀ s t : State, step s = .next t →
    RegistersWrittenBack s t ∧
    (isLw s.mw.instr = false → isAlu s.mw.instr = false → t.x = s.x) ∧
    (∀ r : RegNum, r.toNat < 8 → fwdID s r (readReg s.x r) = readReg t.x r)

/-- 41_pipeline_stages.md section 5 (decisions D27 and D29, the spec's own): MW' and DM' in every cycle; only a `sw`
changes a word of DM, no cycle changes IM. -/
def Obligations.MemoryStageAccessesOneWord : Prop :=
  ∀ s t : State, step s = .next t →
    t.mw = mwNext s ∧ DataMemoryStored s t ∧ (isSw s.em.instr = false → t.dm = s.dm) ∧ t.im = s.im

/-- 41_pipeline_stages.md section 2: the fetched word is latched with PC + 4 and CTR in the sequential case. In a stall
or redirect it is discarded, FD being held or squashed (decision D10, the spec's own), and need not be defined: the
cycle completes whatever PC is (decision D21, the spec's own; log 10). -/
def Obligations.FetchLatchesTheNextWord : Prop :=
  (∀ s t : State, step s = .next t → exRedirect s = none → stall s = false → idRedirect s = false →
    t.fd = ⟨Memory.read s.im (wordIndex s.pc), s.pc + 4, s.ctr⟩ ∧ t.pc = s.pc + 4) ∧
  (∀ s t : State, step s = .next t → exRedirect s ≠ none ∨ stall s = true ∨ idRedirect s = true →
    t.fd = FD.bubble ∨ t.fd = s.fd) ∧
  (∀ s : State, Invariant s → halted s = false → dataInRange s = true →
    exRedirect s ≠ none ∨ stall s = true ∨ idRedirect s = true → ∃ t, step s = .next t)

/-- 41_pipeline_stages.md section 3: the Decode candidate, as it enters DE in a cycle without a stall and without an
Execute redirect. That its destination field is `rd` for opcode 0 and `rt` otherwise, for `sw`, `bne` and `halt` too,
is decision D9, the spec's own (log 10). -/
def Obligations.DecodeLatchesItsCandidate : Prop :=
  ∀ s t : State, step s = .next t → exRedirect s = none → stall s = false →
    (s.fd.instr = 0 → t.de = DE.bubble) ∧
    (s.fd.instr ≠ 0 → t.de =
      { instr := s.fd.instr, pcPlus4 := s.fd.pcPlus4,
        rs := rsOf s.fd.instr, rt := rtOf s.fd.instr, rd := rdOf s.fd.instr,
        imm := zext32 (immOf s.fd.instr), target := 4 * zext32 (immOf s.fd.instr),
        valA := fwdID s (rsOf s.fd.instr) (readReg s.x (rsOf s.fd.instr)),
        valB := fwdID s (rtOf s.fd.instr) (readReg s.x (rtOf s.fd.instr)),
        dest := if opcode s.fd.instr = 0 then rdOf s.fd.instr else rtOf s.fd.instr, pred := s.fd.pred })

/-- 41_pipeline_stages.md section 7 (decisions D10 and D16, the spec's own): who wins PC', FD' and DE', that an Execute
redirect and a stall exclude each other, and the values PC' can take. -/
def Obligations.CommitPriority : Prop :=
  ∀ s t : State, step s = .next t →
    (∀ a, exRedirect s = some a → FrontSquashed s t a ∧ stall s = false) ∧
    (exRedirect s = none → FrontAdvances s t) ∧
    (t.pc = s.de.target ∨ t.pc = s.de.pcPlus4 ∨ t.pc = s.pc ∨ t.pc = 4 * zext32 (immOf s.fd.instr) ∨
      t.pc = s.pc + 4)

/-- 42_hazards_forwarding.md section 2 (decisions D9 to D11, the spec's own; log 10). WHEN the detector stalls: exactly
when DE holds a `lw` or a `sw` (D9) and the raw `rs` or `rt` field of the word in FD, whatever that word is, equals
`DE.dest` (D11), which is the producer's `rt`. WHAT a stall does: it holds PC and FD (D10), sends a bubble, counts
one, and lasts one cycle: the held word then decodes. -/
def Obligations.StallHoldsOneCycle : Prop :=
  (∀ s : State, wellFormedWord s.de.instr = true →
    (stall s = true ↔
      (isLw s.de.instr = true ∨ isSw s.de.instr = true) ∧
      (rsOf s.fd.instr = s.de.dest ∨ rtOf s.fd.instr = s.de.dest))) ∧
  (∀ s : State, Invariant s → isLw s.de.instr = true ∨ isSw s.de.instr = true → s.de.dest = rtOf s.de.instr) ∧
  (∀ s t : State, step s = .next t → stall s = true →
    t.pc = s.pc ∧ t.fd = s.fd ∧ t.de = DE.bubble ∧ t.stalls = s.stalls + 1 ∧
    stall t = false ∧ exRedirect t = none ∧
    (∀ u, step t = .next u → u.de = decodeStage t s.fd))

/-- 43_branch_prediction.md section 2: the speculative redirect of a `bne` in Decode depends on the prediction it carries
alone; a `bne` not predicted taken leaves fetch sequential. That the carried value decides, and not the live
counter, is decision D14, the spec's own (log 10). The Execute-stage events of the same cycle are added as they
are. -/
def Obligations.DecodeRedirectsPredictedBranch : Prop :=
  ∀ s t : State, step s = .next t → exRedirect s = none → stall s = false → isBne s.fd.instr = true →
    (s.fd.pred = 3 →
      t.pc = 4 * zext32 (immOf s.fd.instr) ∧ t.fd = FD.bubble ∧ t.de = decodeStage s s.fd ∧
      t.de.instr = s.fd.instr ∧ t.de.pred = 3 ∧
      t.stalls = s.stalls + 1 + (if isBne s.de.instr then (bneEvents s).stalls else 0) ∧
      t.branches = s.branches + 1 + (if isBne s.de.instr then (bneEvents s).branches else 0)) ∧
    (s.fd.pred ≠ 3 →
      t.pc = s.pc + 4 ∧ t.fd = ⟨Memory.read s.im (wordIndex s.pc), s.pc + 4, s.ctr⟩ ∧
      t.de = decodeStage s s.fd ∧
      t.stalls = s.stalls + (if isBne s.de.instr then (bneEvents s).stalls else 0) ∧
      t.branches = s.branches + (if isBne s.de.instr then (bneEvents s).branches else 0))

/-! ## The instructions in Execute -/

/-- R151: `add` and `sub` complete with the sum or difference of their forwarded operands in EM, and change nothing
else (frame: PlainCycle). -/
def Obligations.AddAndSubExecute : Prop :=
  ∀ (rd rs rt : RegNum) (s : State), writebackNamed s = true → dataInRange s = true → fetchInRange s = true →
    (s.de.Holds (.add rd rs rt) → ∃ t, exec (.add rd rs rt) s = .next t ∧ PlainCycle s t ∧
      t.em = ⟨encode (.add rd rs rt), fwdEX s rs s.de.valA + fwdEX s rt s.de.valB, 0, rd⟩) ∧
    (s.de.Holds (.sub rd rs rt) → ∃ t, exec (.sub rd rs rt) s = .next t ∧ PlainCycle s t ∧
      t.em = ⟨encode (.sub rd rs rt), fwdEX s rs s.de.valA - fwdEX s rt s.de.valB, 0, rd⟩)

/-- R152: `lw` and `sw` complete with the effective address in EM, formed from the base as Decode captured it, `sw`
with the forwarded value to store; they change nothing else (frame: PlainCycle). -/
def Obligations.LoadAndStoreExecute : Prop :=
  ∀ (rt rs : RegNum) (imm : Imm16) (s : State),
    writebackNamed s = true → dataInRange s = true → fetchInRange s = true →
    (s.de.Holds (.lw rt imm rs) → ∃ t, exec (.lw rt imm rs) s = .next t ∧ PlainCycle s t ∧
      t.em = ⟨encode (.lw rt imm rs), zext32 imm + s.de.valA, 0, rt⟩) ∧
    (s.de.Holds (.sw rt imm rs) → ∃ t, exec (.sw rt imm rs) s = .next t ∧ PlainCycle s t ∧
      t.em = ⟨encode (.sw rt imm rs), zext32 imm + s.de.valA, fwdEX s rt s.de.valB, 0⟩)

/-- 41_pipeline_stages.md section 4: `halt`, whatever its unused bits, and `noop` complete with zero results and no side
effect (frame: PlainCycle). -/
def Obligations.HaltAndNoopExecute : Prop :=
  ∀ s : State, writebackNamed s = true → dataInRange s = true → fetchInRange s = true →
    (∀ unused, s.de.Holds (.halt unused) → ∃ t, exec (.halt unused) s = .next t ∧ PlainCycle s t ∧
      t.em = ⟨encode (.halt unused), 0, 0, 0⟩) ∧
    (s.de.Holds .noop → ∃ t, exec .noop s = .next t ∧ PlainCycle s t ∧ t.em = EM.bubble)

/-- 43_branch_prediction.md section 3, taken and not predicted taken, prediction 2 included: it completes whatever PC
is, redirects to the target, squashes both younger slots, and counts a misprediction, a stall and (decision D18, the
spec's own) a branch. -/
def Obligations.BneTakenNotPredictedRedirects : Prop :=
  ∀ (rs rt : RegNum) (imm : Imm16) (s : State),
    s.de.Holds (.bne rs rt imm) → writebackNamed s = true → dataInRange s = true →
    fwdEX s rs s.de.valA ≠ fwdEX s rt s.de.valB → s.de.pred ≠ 3 →
    ∃ t, exec (.bne rs rt imm) s = .next t ∧ BackAdvances s t ∧
      t.em = ⟨encode (.bne rs rt imm), fwdEX s rs s.de.valA - fwdEX s rt s.de.valB, 0, 0⟩ ∧
      FrontSquashed s t (4 * zext32 imm) ∧ t.ctr.toNat = min (s.ctr.toNat + 1) 3 ∧
      t.stalls = s.stalls + 1 ∧ t.branches = s.branches + 1 ∧ t.mispredicts = s.mispredicts + 1

/-- 43_branch_prediction.md section 3, taken and predicted taken: no redirect, a stall is still counted, no
misprediction; the branch was counted at Decode (decision D18, the spec's own). -/
def Obligations.BneTakenPredictedGoesOn : Prop :=
  ∀ (rs rt : RegNum) (imm : Imm16) (s : State),
    s.de.Holds (.bne rs rt imm) → writebackNamed s = true → dataInRange s = true → fetchInRange s = true →
    fwdEX s rs s.de.valA ≠ fwdEX s rt s.de.valB → s.de.pred = 3 →
    ∃ t, exec (.bne rs rt imm) s = .next t ∧ BackAdvances s t ∧
      t.em = ⟨encode (.bne rs rt imm), fwdEX s rs s.de.valA - fwdEX s rt s.de.valB, 0, 0⟩ ∧
      FrontAdvances s t ∧ t.ctr.toNat = min (s.ctr.toNat + 1) 3 ∧
      t.stalls = s.stalls + 1 + decodeStalls s ∧ t.branches = s.branches + decodeBranches s ∧
      t.mispredicts = s.mispredicts

/-- 43_branch_prediction.md section 3 (decision D17, the spec's own), not taken and predicted taken: it completes
whatever PC is, goes back to the branch's own PC + 4, squashes both younger slots, counts a misprediction and no
stall. -/
def Obligations.BneNotTakenPredictedGoesBack : Prop :=
  ∀ (rs rt : RegNum) (imm : Imm16) (s : State),
    s.de.Holds (.bne rs rt imm) → writebackNamed s = true → dataInRange s = true →
    fwdEX s rs s.de.valA = fwdEX s rt s.de.valB → s.de.pred = 3 →
    ∃ t, exec (.bne rs rt imm) s = .next t ∧ BackAdvances s t ∧
      t.em = ⟨encode (.bne rs rt imm), 0, 0, 0⟩ ∧
      FrontSquashed s t s.de.pcPlus4 ∧ t.ctr.toNat = s.ctr.toNat - 1 ∧
      t.stalls = s.stalls ∧ t.branches = s.branches ∧ t.mispredicts = s.mispredicts + 1

/-- 43_branch_prediction.md section 3, not taken and not predicted taken: fetch stays sequential, only CTR changes, the
branch is counted (decision D18, the spec's own). -/
def Obligations.BneNotTakenNotPredictedGoesOn : Prop :=
  ∀ (rs rt : RegNum) (imm : Imm16) (s : State),
    s.de.Holds (.bne rs rt imm) → writebackNamed s = true → dataInRange s = true → fetchInRange s = true →
    fwdEX s rs s.de.valA = fwdEX s rt s.de.valB → s.de.pred ≠ 3 →
    ∃ t, exec (.bne rs rt imm) s = .next t ∧ BackAdvances s t ∧
      t.em = ⟨encode (.bne rs rt imm), 0, 0, 0⟩ ∧
      FrontAdvances s t ∧ t.ctr.toNat = s.ctr.toNat - 1 ∧
      t.stalls = s.stalls + decodeStalls s ∧ t.branches = s.branches + 1 + decodeBranches s ∧
      t.mispredicts = s.mispredicts

/-- R207, R208: the resolution of a `bne` and the update of the live counter in every step, the four outcomes told
apart by the carried prediction; a step with another instruction in Execute redirects nothing from there and changes
neither CTR nor, in Execute, a branch counter. -/
def Obligations.ResolutionTrainsThePredictor : Prop :=
  ∀ s t : State, step s = .next t →
    (isBne s.de.instr = true →
      t.em.aluResult = fwdEX s s.de.rs s.de.valA - fwdEX s s.de.rt s.de.valB ∧
      (taken s = true ↔ fwdEX s s.de.rs s.de.valA - fwdEX s s.de.rt s.de.valB ≠ 0) ∧
      (taken s = true ↔ fwdEX s s.de.rs s.de.valA ≠ fwdEX s s.de.rt s.de.valB) ∧
      (predT s.de.pred = true ↔ s.de.pred = 3) ∧
      t.ctr.toNat = if taken s then min (s.ctr.toNat + 1) 3 else s.ctr.toNat - 1) ∧
    (isBne s.de.instr = false →
      exRedirect s = none ∧ FrontAdvances s t ∧ t.ctr = s.ctr ∧ t.branches = s.branches + decodeBranches s ∧
      t.mispredicts = s.mispredicts)

/-- R202: predict taken only at 3, in each of its three spellings; the states 0, 1 and 2 predict not taken. -/
def Obligations.PredictTakenOnlyAtThree : Prop :=
  ∀ c : PredCounter, (predT c = true ↔ c = 3) ∧ (predT c = true ↔ 3 ≤ c.toNat) ∧ (predT c = true ↔ 2 < c.toNat) ∧
    (c = 0 ∨ c = 1 ∨ c = 2 → predT c = false)

/-- 43_branch_prediction.md section 4: three taken resolutions end at 3 and three not-taken ones at 0, from every
start, through the values of the table. -/
def Obligations.PredictorSaturates : Prop :=
  ∀ c : PredCounter,
    ctrUpdate true (ctrUpdate true (ctrUpdate true c)) = 3 ∧ ctrUpdate true 3 = 3 ∧
    ctrUpdate false (ctrUpdate false (ctrUpdate false c)) = 0 ∧ ctrUpdate false 0 = 0 ∧
    ctrUpdate false 3 = 2 ∧ ctrUpdate false 2 = 1 ∧ ctrUpdate false 1 = 0

/-! ## Program order -/

/-- 42_hazards_forwarding.md section 5: stall and forwarding together deliver, in every cycle, the operand values that
program order gives, to `add`, `sub`, `bne` and the value of a `sw`. -/
def Obligations.ForwardingDeliversProgramOrderValues : Prop :=
  ∀ s t : State, Invariant s → step s = .next t → OperandsFresh t

/-- 42_hazards_forwarding.md sections 4 and 5, 70_reset_and_hazards.md section 3: the base of a `lw` or `sw` is the
register file right after the Writeback of its Decode cycle. It is the value program order gives when no writer of
the base was in DE or EM in that cycle; a writer there is not seen, whatever it writes. -/
def Obligations.BaseRegisterIsCapturedAtDecode : Prop :=
  ∀ s t : State, Invariant s → step s = .next t → (isLw t.de.instr = true ∨ isSw t.de.instr = true) →
    effectiveAddress t = zext32 (immOf t.de.instr) + readReg t.x (rsOf t.de.instr) ∧
    ((writesRegister s.de.instr = true → s.de.dest ≠ rsOf t.de.instr) →
      (writesRegister s.em.instr = true → s.em.dest ≠ rsOf t.de.instr) →
      t.de.valA = programOrderValue t t.de.rs)

/-- 20_memory.md section 7: a `lw` right behind a `sw` to the same word reads the stored value. -/
def Obligations.LoadReadsTheStoreBeforeIt : Prop :=
  ∀ s t u : State, step s = .next t → step t = .next u → isSw s.em.instr = true → isLw t.em.instr = true →
    wordIndex s.em.aluResult = wordIndex t.em.aluResult →
    u.mw.instr = t.em.instr ∧ u.mw.memData = s.em.storeData

/-- 41_pipeline_stages.md section 1, 40_instructions.md section 2: the result of an `add` or `sub` in Execute is in its
destination register three cycles later. -/
def Obligations.AluResultReachesTheRegisterFile : Prop :=
  ∀ s s1 s2 s3 : State, Invariant s → step s = .next s1 → step s1 = .next s2 → step s2 = .next s3 →
    (isAdd s.de.instr = true → readReg s3.x (rdOf s.de.instr) = operandA s + operandB s) ∧
    (isSub s.de.instr = true → readReg s3.x (rdOf s.de.instr) = operandA s - operandB s)

/-- 41_pipeline_stages.md section 1, 40_instructions.md section 3: a `lw` in Execute reads data memory one cycle later and
the word is in its destination register three cycles later. -/
def Obligations.LoadedWordReachesTheRegisterFile : Prop :=
  ∀ s s1 s2 s3 : State, Invariant s → step s = .next s1 → step s1 = .next s2 → step s2 = .next s3 →
    isLw s.de.instr = true →
    readReg s3.x (rtOf s.de.instr) = Memory.read s1.dm (wordIndex (zext32 (immOf s.de.instr) + s.de.valA))

/-- 41_pipeline_stages.md section 1, 40_instructions.md section 3: a `sw` in Execute has changed its word, and no other,
two cycles later. -/
def Obligations.StoredWordReachesDataMemory : Prop :=
  ∀ s s1 s2 : State, Invariant s → step s = .next s1 → step s1 = .next s2 → isSw s.de.instr = true →
    ∀ a : Nat, Memory.read s2.dm a =
      if wordIndex (zext32 (immOf s.de.instr) + s.de.valA) = a then operandB s else Memory.read s1.dm a

/-- 43_branch_prediction.md section 4: after a misprediction the two squashed slots do nothing: the next cycle runs a
bubble, sends a bubble on, and changes neither CTR nor an event counter. -/
def Obligations.SquashedSlotsDoNothing : Prop :=
  ∀ s t u : State, step s = .next t → exRedirect s ≠ none → step t = .next u →
    t.fd = FD.bubble ∧ t.de = DE.bubble ∧ u.de = DE.bubble ∧ u.em = EM.bubble ∧ u.ctr = t.ctr ∧
    u.stalls = t.stalls ∧ u.branches = t.branches ∧ u.mispredicts = t.mispredicts

/-- 41_pipeline_stages.md section 8: a `halt` in Execute is in MW two cycles later with zero results, the run is then
over, and in between the two older instructions complete. That the state with the `halt` in MW is final is decision
D26, the spec's own; that `step` says so by the fault `halted` is this model's choice (log 5). -/
def Obligations.HaltReachesWriteback : Prop :=
  ∀ s t u : State, isHalt s.de.instr = true → step s = .next t → step t = .next u →
    t.em = ⟨s.de.instr, 0, 0, 0⟩ ∧ u.mw = ⟨s.de.instr, 0, 0, 0⟩ ∧ halted u = true ∧
    step u = .fault .halted ∧ RegistersWrittenBack s t ∧ RegistersWrittenBack t u ∧
    DataMemoryStored s t ∧ u.dm = t.dm

/-! ## The counters -/

/-- 60_exceptions.md section 3: CYCLES counts every cycle, STALLS and MISPREDICTS grow by at most one, BRANCHES by at
most two, none ever falls. -/
def Obligations.CountersGrowByBoundedSteps : Prop :=
  ∀ s t : State, Invariant s → step s = .next t →
    t.cycles = s.cycles + 1 ∧ s.stalls ≤ t.stalls ∧ t.stalls ≤ s.stalls + 1 ∧
    s.branches ≤ t.branches ∧ t.branches ≤ s.branches + 2 ∧
    s.mispredicts ≤ t.mispredicts ∧ t.mispredicts ≤ s.mispredicts + 1

/-- 60_exceptions.md section 3, decision D18 (the spec's own): a misprediction is only ever counted of a branch that is
counted too; at launch both are 0 and every cycle keeps it. -/
def Obligations.MispredictionsNeverExceedBranches : Prop :=
  (∀ p : Launch, (State.launch p).mispredicts + countedInFlight (State.launch p) ≤ (State.launch p).branches) ∧
  (∀ s t : State, s.mispredicts + countedInFlight s ≤ s.branches → step s = .next t →
    t.mispredicts + countedInFlight t ≤ t.branches)

/-! ## The pipeline and the instruction-level reference -/

/-- 40_instructions.md sections 2 to 5: what each of the seven instructions does taken alone, in the reference execution.
A `halt` ends it with no next state, so nothing changes; that it says so by the fault `halted` is this model's choice
(log 5). -/
def Obligations.ReferenceInstructionEffects : Prop :=
  ∀ a : Arch,
    (∀ rd rs rt : RegNum, rd.toNat < 8 → ∃ b, refExec (.add rd rs rt) a = .next b ∧
      b.pc = a.pc + 4 ∧ b.dm = a.dm ∧
      ∀ r, readReg b.x r = if r = rd then readReg a.x rs + readReg a.x rt else readReg a.x r) ∧
    (∀ rd rs rt : RegNum, rd.toNat < 8 → ∃ b, refExec (.sub rd rs rt) a = .next b ∧
      b.pc = a.pc + 4 ∧ b.dm = a.dm ∧
      ∀ r, readReg b.x r = if r = rd then readReg a.x rs - readReg a.x rt else readReg a.x r) ∧
    (∀ (rt rs : RegNum) (imm : Imm16), rt.toNat < 8 → wordIndex (readReg a.x rs + zext32 imm) < 16 →
      ∃ b, refExec (.lw rt imm rs) a = .next b ∧ b.pc = a.pc + 4 ∧ b.dm = a.dm ∧
        ∀ r, readReg b.x r =
          if r = rt then Memory.read a.dm (wordIndex (readReg a.x rs + zext32 imm)) else readReg a.x r) ∧
    (∀ (rt rs : RegNum) (imm : Imm16), wordIndex (readReg a.x rs + zext32 imm) < 16 →
      ∃ b, refExec (.sw rt imm rs) a = .next b ∧ b.pc = a.pc + 4 ∧ b.x = a.x ∧
        ∀ n, Memory.read b.dm n =
          if n = wordIndex (readReg a.x rs + zext32 imm) then readReg a.x rt else Memory.read a.dm n) ∧
    (∀ (rs rt : RegNum) (imm : Imm16), ∃ b, refExec (.bne rs rt imm) a = .next b ∧ b.x = a.x ∧ b.dm = a.dm ∧
      b.pc = if readReg a.x rs ≠ readReg a.x rt then 4 * zext32 imm else a.pc + 4) ∧
    (∀ unused : BitVec 26, refExec (.halt unused) a = .fault .halted) ∧
    (∃ b, refExec .noop a = .next b ∧ b.pc = a.pc + 4 ∧ b.x = a.x ∧ b.dm = a.dm)

/-- 40_instructions.md section 1: the reference execution from any state of a well-formed program, under the base-register
rule or not, stops only at a `halt`, which it does not pass, or in the outcome of an access out of range; it refuses
nothing, and more fuel changes nothing. -/
def Obligations.ReferenceRunStopsAtHaltOrOutOfRange : Prop :=
  ∀ (im : Memory) (n : Nat) (a : Arch) (r : Result Arch), wellFormedIM im = true → refRun im n a = some r →
    ((∃ b w, r = .next b ∧ iFetch im b.pc = .next w ∧ isHalt w = true) ∨
      (∃ pc, r = .fault (.fetchOutOfRange pc) ∧ 16 ≤ wordIndex pc) ∨
      ∃ addr, r = .fault (.dataAddressOutOfRange addr) ∧ 16 ≤ wordIndex addr) ∧
    ∀ k, refRun im (n + k) a = some r

/-- 40_instructions.md section 1 under the software rule of 70_reset_and_hazards.md section 3: for every well-formed
program, every data, every registers and every PRED_RESET, if the reference execution reaches its `halt` and its
instructions keep the base-register rule, then a pipeline run that reaches the halt observation ends with the reference's registers and
data memory. -/
def Obligations.PipelineAgreesWithReference : Prop :=
  ∀ (p : Launch) (n k : Nat) (a : Arch) (s : State), p.ok = true →
    refProgram n p = some (.next a) → p.keepsBaseRule n = true →
    Host.Core.run Sys2Proof.core k (State.launch p) = .next s → halted s = true →
    s.x = a.x ∧ s.dm = a.dm

/-- The same with termination: the pipeline run does end, in the halt observation with the reference's registers and
data memory, or in the outcome of a fetch out of range (which the words fetched behind the `halt` or on a wrong path
can raise); no other outcome arises. -/
def Obligations.PipelineRunEndsAsReference : Prop :=
  ∀ (p : Launch) (n : Nat) (a : Arch), p.ok = true →
    refProgram n p = some (.next a) → p.keepsBaseRule n = true →
    ∃ fuel, (∃ s, runProgram fuel p = some (.next s) ∧ halted s = true ∧ s.x = a.x ∧ s.dm = a.dm) ∨
      ∃ pc, runProgram fuel p = some (.fault (.fetchOutOfRange pc))
end

