-- ==== Sys2Proof/Laws/Decode.lean ====
section
/-! SUPPORT. The fields of an encoded instruction, the classes of a word, and what decoding can answer. -/

namespace Sys2Proof

/-! ## Fields of the R format (30_encoding.md R92) -/

section
variable (rs rt rd : RegNum) (f op : BitVec 6) (imm : Imm16)

theorem getLsbD_encodeR (i : Nat) : (encodeR rs rt rd f).getLsbD i =
    if i < 6 then f.getLsbD i else if i < 11 then false else if i < 16 then rd.getLsbD (i - 11)
    else if i < 21 then rt.getLsbD (i - 16) else if i < 26 then rs.getLsbD (i - 21) else false := by
  unfold encodeR
  simp only [BitVec.getLsbD_append, BitVec.getLsbD_zero]
  grind

@[simp] theorem opcode_encodeR : opcode (encodeR rs rt rd f) = 0 := by
  apply BitVec.eq_of_getLsbD_eq
  intro i hi
  simp only [opcode, BitVec.getLsbD_extractLsb', getLsbD_encodeR]
  grind

@[simp] theorem rsOf_encodeR : rsOf (encodeR rs rt rd f) = rs := by
  apply BitVec.eq_of_getLsbD_eq
  intro i hi
  simp only [rsOf, BitVec.getLsbD_extractLsb', getLsbD_encodeR]
  grind

@[simp] theorem rtOf_encodeR : rtOf (encodeR rs rt rd f) = rt := by
  apply BitVec.eq_of_getLsbD_eq
  intro i hi
  simp only [rtOf, BitVec.getLsbD_extractLsb', getLsbD_encodeR]
  grind

@[simp] theorem rdOf_encodeR : rdOf (encodeR rs rt rd f) = rd := by
  apply BitVec.eq_of_getLsbD_eq
  intro i hi
  simp only [rdOf, BitVec.getLsbD_extractLsb', getLsbD_encodeR]
  grind

@[simp] theorem shamtOf_encodeR : shamtOf (encodeR rs rt rd f) = 0 := by
  apply BitVec.eq_of_getLsbD_eq
  intro i hi
  simp only [shamtOf, BitVec.getLsbD_extractLsb', getLsbD_encodeR]
  grind

@[simp] theorem functOf_encodeR : functOf (encodeR rs rt rd f) = f := by
  apply BitVec.eq_of_getLsbD_eq
  intro i hi
  simp only [functOf, BitVec.getLsbD_extractLsb', getLsbD_encodeR]
  grind

/-! ## Fields of the I format (R93) -/

theorem getLsbD_encodeI (i : Nat) : (encodeI op rs rt imm).getLsbD i =
    if i < 16 then imm.getLsbD i else if i < 21 then rt.getLsbD (i - 16)
    else if i < 26 then rs.getLsbD (i - 21) else op.getLsbD (i - 26) := by
  unfold encodeI
  simp only [BitVec.getLsbD_append]
  grind

@[simp] theorem opcode_encodeI : opcode (encodeI op rs rt imm) = op := by
  apply BitVec.eq_of_getLsbD_eq
  intro i hi
  simp only [opcode, BitVec.getLsbD_extractLsb', getLsbD_encodeI]
  grind

@[simp] theorem rsOf_encodeI : rsOf (encodeI op rs rt imm) = rs := by
  apply BitVec.eq_of_getLsbD_eq
  intro i hi
  simp only [rsOf, BitVec.getLsbD_extractLsb', getLsbD_encodeI]
  grind

@[simp] theorem rtOf_encodeI : rtOf (encodeI op rs rt imm) = rt := by
  apply BitVec.eq_of_getLsbD_eq
  intro i hi
  simp only [rtOf, BitVec.getLsbD_extractLsb', getLsbD_encodeI]
  grind

@[simp] theorem immOf_encodeI : immOf (encodeI op rs rt imm) = imm := by
  apply BitVec.eq_of_getLsbD_eq
  intro i hi
  simp only [immOf, BitVec.getLsbD_extractLsb', getLsbD_encodeI]
  grind
end

/-! ## Fields of a halt word (R94) -/

theorem getLsbD_encode_halt (u : BitVec 26) (i : Nat) : (encode (.halt u)).getLsbD i =
    if i < 26 then u.getLsbD i else (63#6).getLsbD (i - 26) := by
  simp only [encode, BitVec.getLsbD_append]

@[simp] theorem opcode_encode_halt (u : BitVec 26) : opcode (encode (.halt u)) = 63 := by
  apply BitVec.eq_of_getLsbD_eq
  intro i hi
  simp only [opcode, BitVec.getLsbD_extractLsb', getLsbD_encode_halt]
  grind

@[simp] theorem unusedOf_encode_halt (u : BitVec 26) : unusedOf (encode (.halt u)) = u := by
  apply BitVec.eq_of_getLsbD_eq
  intro i hi
  simp only [unusedOf, BitVec.getLsbD_extractLsb', getLsbD_encode_halt]
  grind

/-! ## Classes (00_scope.md R12) -/

@[simp] theorem isNoop_iff (w : Word) : isNoop w = true ↔ w = 0 := by simp [isNoop]
theorem isAlu_iff (w : Word) : isAlu w = true ↔ opcode w = 0 ∧ (functOf w = 32 ∨ functOf w = 34) := by simp [isAlu]
theorem isAdd_iff (w : Word) : isAdd w = true ↔ opcode w = 0 ∧ functOf w = 32 := by
  simp only [isAdd, Bool.and_eq_true, isAlu_iff, beq_iff_eq]
  tauto
theorem isSub_iff (w : Word) : isSub w = true ↔ opcode w = 0 ∧ functOf w = 34 := by
  simp only [isSub, Bool.and_eq_true, isAlu_iff, beq_iff_eq]
  tauto
theorem isLw_iff (w : Word) : isLw w = true ↔ opcode w = 35 := by simp [isLw]
theorem isSw_iff (w : Word) : isSw w = true ↔ opcode w = 43 := by simp [isSw]
theorem isBne_iff (w : Word) : isBne w = true ↔ opcode w = 4 := by simp [isBne]
theorem isHalt_iff (w : Word) : isHalt w = true ↔ opcode w = 63 := by simp [isHalt]

/-! The word 0, the `noop` and the bubble, is in no other class. -/

@[simp] theorem isAlu_zero : isAlu 0#32 = false := by decide
@[simp] theorem isAdd_zero : isAdd 0#32 = false := by decide
@[simp] theorem isSub_zero : isSub 0#32 = false := by decide
@[simp] theorem isLw_zero : isLw 0#32 = false := by decide
@[simp] theorem isSw_zero : isSw 0#32 = false := by decide
@[simp] theorem isBne_zero : isBne 0#32 = false := by decide
@[simp] theorem isHalt_zero : isHalt 0#32 = false := by decide

/-! The classes with an opcode of their own exclude each other. -/

theorem isAlu_eq_false_of_isLw {w : Word} (h : isLw w = true) : isAlu w = false := by
  rw [isLw_iff] at h
  simp [isAlu, h]

theorem isSw_eq_false_of_isLw {w : Word} (h : isLw w = true) : isSw w = false := by
  rw [isLw_iff] at h
  simp [isSw, h]

theorem isSw_eq_false_of_isAlu {w : Word} (h : isAlu w = true) : isSw w = false := by
  rw [isAlu_iff] at h
  simp [isSw, h.1]

theorem isBne_eq_false_of_isAlu {w : Word} (h : isAlu w = true) : isBne w = false := by
  rw [isAlu_iff] at h
  simp [isBne, h.1]

theorem isBne_eq_false_of_isLw {w : Word} (h : isLw w = true) : isBne w = false := by
  rw [isLw_iff] at h
  simp [isBne, h]

theorem isBne_eq_false_of_isSw {w : Word} (h : isSw w = true) : isBne w = false := by
  rw [isSw_iff] at h
  simp [isBne, h]

theorem ne_zero_of_opcode_ne_zero {w : Word} (h : opcode w ≠ 0) : w ≠ 0 := by
  rintro rfl
  exact h (by decide)

theorem ne_zero_of_isAlu {w : Word} (h : isAlu w = true) : w ≠ 0 := by
  rintro rfl
  exact absurd h (by decide)

/-! ## What decoding can answer (R99, R100) -/

theorem named_iff (n : RegNum) : RegNum.named n = true ↔ n.toNat < 8 := by simp [RegNum.named]

theorem checkRegisters_eq_ok {i j : Instr} : checkRegisters i = .ok j ↔ i.wf = true ∧ j = i := by
  unfold checkRegisters
  split
  · rename_i h
    simp [h, eq_comm]
  · rename_i h
    simp [h]

/-- The seven ways the decoder answers an instruction. -/
inductive DecodesTo (w : Word) : Instr → Prop where
  | noop : w = 0 → DecodesTo w .noop
  | add : opcode w = 0 → shamtOf w = 0 → functOf w = 32 → (Instr.add (rdOf w) (rsOf w) (rtOf w)).wf = true →
      DecodesTo w (.add (rdOf w) (rsOf w) (rtOf w))
  | sub : opcode w = 0 → shamtOf w = 0 → functOf w = 34 → (Instr.sub (rdOf w) (rsOf w) (rtOf w)).wf = true →
      DecodesTo w (.sub (rdOf w) (rsOf w) (rtOf w))
  | lw : opcode w = 35 → (Instr.lw (rtOf w) (immOf w) (rsOf w)).wf = true →
      DecodesTo w (.lw (rtOf w) (immOf w) (rsOf w))
  | sw : opcode w = 43 → (Instr.sw (rtOf w) (immOf w) (rsOf w)).wf = true →
      DecodesTo w (.sw (rtOf w) (immOf w) (rsOf w))
  | bne : opcode w = 4 → (Instr.bne (rsOf w) (rtOf w) (immOf w)).wf = true →
      DecodesTo w (.bne (rsOf w) (rtOf w) (immOf w))
  | halt : opcode w = 63 → DecodesTo w (.halt (unusedOf w))

theorem decodeR_cases {w : Word} {i : Instr} (ho : opcode w = 0) (h : decodeR w = .ok i) : DecodesTo w i := by
  unfold decodeR at h
  split at h
  · rename_i hf
    split at h
    · rename_i hs
      obtain ⟨hw, rfl⟩ := checkRegisters_eq_ok.1 h
      exact .add ho hs hf hw
    · cases h
  · split at h
    · rename_i hf
      split at h
      · rename_i hs
        obtain ⟨hw, rfl⟩ := checkRegisters_eq_ok.1 h
        exact .sub ho hs hf hw
      · cases h
    · cases h

/-- The inversion of the decoder. -/
theorem decode_cases {w : Word} {i : Instr} (h : decode w = .ok i) : DecodesTo w i := by
  unfold decode at h
  split at h
  · rename_i h0
    cases h
    exact .noop h0
  split at h
  · rename_i ho
    exact decodeR_cases ho h
  split at h
  · rename_i ho
    obtain ⟨hw, rfl⟩ := checkRegisters_eq_ok.1 h
    exact .lw ho hw
  split at h
  · rename_i ho
    obtain ⟨hw, rfl⟩ := checkRegisters_eq_ok.1 h
    exact .sw ho hw
  split at h
  · rename_i ho
    obtain ⟨hw, rfl⟩ := checkRegisters_eq_ok.1 h
    exact .bne ho hw
  split at h
  · rename_i ho
    cases h
    exact .halt ho
  · cases h

theorem wellFormedWord_iff (w : Word) : wellFormedWord w = true ↔ ∃ i, decode w = .ok i := by
  unfold wellFormedWord
  cases decode w <;> simp [Except.isOk, Except.toBool]

@[simp] theorem wellFormedWord_zero : wellFormedWord 0#32 = true := by decide

end Sys2Proof
end

