-- ==== Sys2Proof/Laws/Ops.lean ====
section
/-! SUPPORT. What the shared operations of Machine/Ops.lean can do: chaining outcomes, the two memories and their
canonical form, the register file. -/

namespace Sys2Proof.Machine

/-! ## Outcomes -/

section
variable {α β : Type}
@[simp] theorem andThen_next (a : α) (f : α → Result β) : andThen (.next a) f = f a := rfl
@[simp] theorem andThen_fault (e : Fault) (f : α → Result β) : andThen (.fault e) f = .fault e := rfl
@[simp] theorem andThen_refused (e : Refusal) (f : α → Result β) : andThen (.refused e) f = .refused e := rfl

/-- Two answers are the same answer exactly when their values are. -/
theorem next_eq_next {a b : α} : (Host.Outcome.next a : Result α) = .next b ↔ b = a := by
  rw [Host.Outcome.next.injEq, eq_comm]

/-- A chain answers a value exactly when both parts do. -/
theorem andThen_eq_next {r : Result α} {f : α → Result β} {b : β} :
    andThen r f = .next b ↔ ∃ a, r = .next a ∧ f a = .next b := by
  cases r <;> simp

/-- A chain faults when its first part does, or when that answers a value and the second part faults. -/
theorem andThen_eq_fault {r : Result α} {f : α → Result β} {e : Fault} :
    andThen r f = .fault e ↔ r = .fault e ∨ ∃ a, r = .next a ∧ f a = .fault e := by
  cases r <;> simp
end

/-! ## Memories -/

theorem Memory.read_of_not_listed {m : Memory} {i : Nat} (h : ∀ c ∈ m, c.1 ≠ i) :
    Memory.read m i = Config.unlistedWord := by
  induction m with
  | nil => rfl
  | cons c m ih =>
    rw [Memory.read, if_neg (h c (by simp))]
    exact ih fun d hd => h d (by simp [hd])

theorem Memory.read_erase (m : Memory) (i j : Nat) :
    Memory.read (Memory.erase m i) j = if j = i then Config.unlistedWord else Memory.read m j := by
  induction m with
  | nil => simp [Memory.erase, Memory.read]
  | cons c m ih =>
    unfold Memory.erase at ih ⊢
    by_cases hc : c.1 = i
    · rw [List.filter_cons_of_neg (by simpa using hc), ih]
      by_cases hj : j = i
      · simp [hj]
      · simp only [if_neg hj, Memory.read]
        rw [if_neg (by omega)]
    · rw [List.filter_cons_of_pos (by simpa using hc)]
      simp only [Memory.read, ih]
      by_cases hj : c.1 = j
      · rw [if_pos hj, if_neg (by omega), if_pos hj]
      · simp [if_neg hj]

theorem Memory.read_insert {m : Memory} {i : Nat} (v : Word) (h : ∀ c ∈ m, c.1 ≠ i) (j : Nat) :
    Memory.read (Memory.insert m i v) j = if j = i then v else Memory.read m j := by
  induction m with
  | nil => simp [Memory.insert, Memory.read, eq_comm]
  | cons c m ih =>
    have hc := h c (by simp)
    rw [Memory.insert]
    split
    · simp [Memory.read, eq_comm]
    · rw [Memory.read, ih fun d hd => h d (by simp [hd])]
      simp only [Memory.read]
      split <;> split <;> first | rfl | omega

theorem Memory.not_listed_erase (m : Memory) (i : Nat) : ∀ c ∈ Memory.erase m i, c.1 ≠ i := by
  simp [Memory.erase]

/-- A written word reads back, and every other word reads as before, in any memory. -/
theorem Memory.read_write (m : Memory) (i : Nat) (v : Word) (j : Nat) :
    Memory.read (Memory.write m i v) j = if j = i then v else Memory.read m j := by
  unfold Memory.write
  split
  · rename_i h
    rw [Memory.read_erase, h]
  · rw [Memory.read_insert v (Memory.not_listed_erase m i), Memory.read_erase]
    split <;> rfl

theorem Memory.rising_iff_pairwise (m : Memory) :
    Memory.rising m = true ↔ m.Pairwise fun c d => c.1 < d.1 := by
  induction m with
  | nil => simp [Memory.rising]
  | cons c m ih =>
    cases m with
    | nil => simp [Memory.rising]
    | cons d m =>
      rw [Memory.rising, Bool.and_eq_true, ih]
      simp only [decide_eq_true_eq, List.pairwise_cons, List.mem_cons, forall_eq_or_imp]
      constructor
      · rintro ⟨h, hd, hm⟩
        exact ⟨⟨h, fun a ha => Nat.lt_trans h (hd a ha)⟩, hd, hm⟩
      · rintro ⟨⟨h, -⟩, hd, hm⟩
        exact ⟨h, hd, hm⟩

theorem Memory.mem_insert {m : Memory} {i : Nat} {v : Word} {c : Nat × Word} :
    c ∈ Memory.insert m i v ↔ c = (i, v) ∨ c ∈ m := by
  induction m with
  | nil => simp [Memory.insert]
  | cons d m ih =>
    rw [Memory.insert]
    split
    · simp
    · simp only [List.mem_cons, ih]
      tauto

theorem Memory.pairwise_insert {m : Memory} {i : Nat} {v : Word} (h : ∀ c ∈ m, c.1 ≠ i)
    (hm : m.Pairwise fun c d => c.1 < d.1) : (Memory.insert m i v).Pairwise fun c d => c.1 < d.1 := by
  induction m with
  | nil => simp [Memory.insert]
  | cons d m ih =>
    have hd := h d (by simp)
    rw [List.pairwise_cons] at hm
    rw [Memory.insert]
    split
    · rename_i hlt
      simp only [List.pairwise_cons, List.mem_cons, forall_eq_or_imp]
      exact ⟨⟨hlt, fun a ha => Nat.lt_trans hlt (hm.1 a ha)⟩, hm.1, hm.2⟩
    · rename_i hge
      refine List.pairwise_cons.2 ⟨fun a ha => ?_, ih (fun c hc => h c (by simp [hc])) hm.2⟩
      rcases Memory.mem_insert.1 ha with rfl | ha
      · simp only
        omega
      · exact hm.1 a ha

/-- The canonical form, said of the entries. -/
theorem Memory.wf_iff (m : Memory) : Memory.wf m = true ↔
    (m.Pairwise fun c d => c.1 < d.1) ∧ ∀ c ∈ m, c.1 < 16 ∧ c.2 ≠ Config.unlistedWord := by
  simp [Memory.wf, Memory.rising_iff_pairwise]

/-- Writing a word of a 16-word memory keeps the canonical form. -/
theorem Memory.wf_write {m : Memory} {i : Nat} (v : Word) (hi : i < 16) (h : Memory.wf m = true) :
    Memory.wf (Memory.write m i v) = true := by
  rw [Memory.wf_iff] at h ⊢
  have he : (Memory.erase m i).Pairwise fun c d => c.1 < d.1 := h.1.filter _
  have hm : ∀ c ∈ Memory.erase m i, c ∈ m := fun c hc => List.mem_of_mem_filter hc
  unfold Memory.write
  split
  · exact ⟨he, fun c hc => h.2 c (hm c hc)⟩
  · rename_i hv
    refine ⟨Memory.pairwise_insert (Memory.not_listed_erase m i) he, fun c hc => ?_⟩
    rcases Memory.mem_insert.1 hc with rfl | hc
    · exact ⟨hi, hv⟩
    · exact h.2 c (hm c hc)

/-- The memories of the reset state are canonical. -/
theorem reset_memories_wf : Memory.wf State.reset.im = true ∧ Memory.wf State.reset.dm = true := by decide

/-! ## Accesses with a byte address -/

theorem memRead_eq_next {m : Memory} {a v : Word} :
    memRead m a = .next v ↔ wordIndex a < 16 ∧ v = Memory.read m (wordIndex a) := by
  unfold memRead Config.dmemWords
  split
  · rename_i h
    simp [h, eq_comm]
  · rename_i h
    simp [h]

theorem memWrite_eq_next {m n : Memory} {a v : Word} :
    memWrite m a v = .next n ↔ wordIndex a < 16 ∧ n = Memory.write m (wordIndex a) v := by
  unfold memWrite Config.dmemWords
  split
  · rename_i h
    simp [h, eq_comm]
  · rename_i h
    simp [h]

/-- A store keeps the canonical form. -/
theorem memWrite_wf {m n : Memory} {a v : Word} (h : Memory.wf m = true) (hw : memWrite m a v = .next n) :
    Memory.wf n = true := by
  obtain ⟨hi, rfl⟩ := memWrite_eq_next.1 hw
  exact Memory.wf_write v hi h

theorem iFetch_eq_next {m : Memory} {a v : Word} :
    iFetch m a = .next v ↔ wordIndex a < 16 ∧ v = Memory.read m (wordIndex a) := by
  unfold iFetch Config.imemWords
  split
  · rename_i h
    simp [h, eq_comm]
  · rename_i h
    simp [h]

theorem wordIndex_lt_iff (a : Word) : wordIndex a < 16 ↔ a.toNat < 64 := by
  unfold wordIndex
  omega

/-! ## The register file -/

theorem writeReg_eq_next {x y : Vector Word 8} {n : RegNum} {v : Word} :
    writeReg x n v = .next y ↔ ∃ h : n.toNat < 8, y = x.set n.toNat v := by
  unfold writeReg
  split
  · rename_i h
    simp [h, eq_comm]
  · rename_i h
    simp [h]

/-- A written register reads back, every other register reads as before; register 0 is no exception (R20). -/
theorem readReg_set (x : Vector Word 8) {n : RegNum} (h : n.toNat < 8) (v : Word) (r : RegNum) :
    readReg (x.set n.toNat v) r = if r = n then v else readReg x r := by
  unfold readReg
  by_cases hr : r.toNat < 8
  · rw [dif_pos hr, dif_pos hr, Vector.getElem_set]
    by_cases hrn : r = n
    · simp [hrn]
    · rw [if_neg hrn, if_neg fun h => hrn (BitVec.eq_of_toNat_eq h.symm)]
  · rw [dif_neg hr, dif_neg hr, if_neg]
    rintro rfl
    exact hr h

end Sys2Proof.Machine
end

