-- ==== Sys2Proof/Laws/State.lean ====
section
/-! SUPPORT. One lemma per field of every state the model builds, so that no later proof unfolds a record. -/

namespace Sys2Proof.Machine

/-! ## The launch state (10_state.md R50) -/

@[simp] theorem launch_pc (p : Launch) : (State.launch p).pc = 0 := rfl
@[simp] theorem launch_x (p : Launch) : (State.launch p).x = p.x := rfl
@[simp] theorem launch_im (p : Launch) : (State.launch p).im = p.im := rfl
@[simp] theorem launch_dm (p : Launch) : (State.launch p).dm = p.dm := rfl
@[simp] theorem launch_ctr (p : Launch) : (State.launch p).ctr = p.pred := rfl
@[simp] theorem launch_fd (p : Launch) : (State.launch p).fd = FD.bubble := rfl
@[simp] theorem launch_de (p : Launch) : (State.launch p).de = DE.bubble := rfl
@[simp] theorem launch_em (p : Launch) : (State.launch p).em = EM.bubble := rfl
@[simp] theorem launch_mw (p : Launch) : (State.launch p).mw = MW.bubble := rfl
@[simp] theorem launch_cycles (p : Launch) : (State.launch p).cycles = 0 := rfl
@[simp] theorem launch_stalls (p : Launch) : (State.launch p).stalls = 0 := rfl
@[simp] theorem launch_branches (p : Launch) : (State.launch p).branches = 0 := rfl
@[simp] theorem launch_mispredicts (p : Launch) : (State.launch p).mispredicts = 0 := rfl

/-! ## Bubbles (10_state.md R40) -/

@[simp] theorem fd_bubble_instr : FD.bubble.instr = 0 := rfl
@[simp] theorem fd_bubble_pcPlus4 : FD.bubble.pcPlus4 = 0 := rfl
@[simp] theorem fd_bubble_pred : FD.bubble.pred = 0 := rfl
@[simp] theorem de_bubble_instr : DE.bubble.instr = 0 := rfl
@[simp] theorem de_bubble_pcPlus4 : DE.bubble.pcPlus4 = 0 := rfl
@[simp] theorem de_bubble_dest : DE.bubble.dest = 0 := rfl
@[simp] theorem de_bubble_pred : DE.bubble.pred = 0 := rfl
@[simp] theorem em_bubble_instr : EM.bubble.instr = 0 := rfl
@[simp] theorem em_bubble_aluResult : EM.bubble.aluResult = 0 := rfl
@[simp] theorem em_bubble_storeData : EM.bubble.storeData = 0 := rfl
@[simp] theorem em_bubble_dest : EM.bubble.dest = 0 := rfl
@[simp] theorem mw_bubble_instr : MW.bubble.instr = 0 := rfl
@[simp] theorem mw_bubble_aluResult : MW.bubble.aluResult = 0 := rfl
@[simp] theorem mw_bubble_memData : MW.bubble.memData = 0 := rfl
@[simp] theorem mw_bubble_dest : MW.bubble.dest = 0 := rfl

/-! ## The state a cycle assembles (41_pipeline_stages.md R159) -/

section
variable (s : State) (ex : ExOut) (x : Vector Word 8) (m : MemOut) (f : Front)
@[simp] theorem assemble_pc : (assemble s ex x m f).pc = f.pc := rfl
@[simp] theorem assemble_x : (assemble s ex x m f).x = x := rfl
@[simp] theorem assemble_im : (assemble s ex x m f).im = s.im := rfl
@[simp] theorem assemble_dm : (assemble s ex x m f).dm = m.dm := rfl
@[simp] theorem assemble_ctr : (assemble s ex x m f).ctr = ex.ctr := rfl
@[simp] theorem assemble_fd : (assemble s ex x m f).fd = f.fd := rfl
@[simp] theorem assemble_de : (assemble s ex x m f).de = f.de := rfl
@[simp] theorem assemble_em : (assemble s ex x m f).em = ex.em := rfl
@[simp] theorem assemble_mw : (assemble s ex x m f).mw = m.mw := rfl
@[simp] theorem assemble_cycles : (assemble s ex x m f).cycles = s.cycles + 1 := rfl
@[simp] theorem assemble_stalls :
    (assemble s ex x m f).stalls = s.stalls + (ex.events.stalls + f.events.stalls) := rfl
@[simp] theorem assemble_branches :
    (assemble s ex x m f).branches = s.branches + (ex.events.branches + f.events.branches) := rfl
@[simp] theorem assemble_mispredicts :
    (assemble s ex x m f).mispredicts = s.mispredicts + (ex.events.mispredicts + f.events.mispredicts) := rfl
end

/-! ## What an instruction without control effect gives in Execute -/

section
variable (s : State) (em : EM)
@[simp] theorem plain_em : (ExOut.plain s em).em = em := rfl
@[simp] theorem plain_redirect : (ExOut.plain s em).redirect = none := rfl
@[simp] theorem plain_ctr : (ExOut.plain s em).ctr = s.ctr := rfl
@[simp] theorem plain_events : (ExOut.plain s em).events = Events.none := rfl
end

@[simp] theorem events_none_stalls : Events.none.stalls = 0 := rfl
@[simp] theorem events_none_branches : Events.none.branches = 0 := rfl
@[simp] theorem events_none_mispredicts : Events.none.mispredicts = 0 := rfl

@[simp] theorem bneOut_em (s : State) : (bneOut s).em = ⟨s.de.instr, operandA s - operandB s, 0, 0⟩ := rfl
@[simp] theorem bneOut_redirect (s : State) : (bneOut s).redirect = bneRedirect s := rfl
@[simp] theorem bneOut_ctr (s : State) : (bneOut s).ctr = ctrUpdate (taken s) s.ctr := rfl
@[simp] theorem bneOut_events (s : State) : (bneOut s).events = bneEvents s := rfl

/-! ## The word put into Execute by withFetchWord -/

section
variable (s : State) (nbits w : Nat)
@[simp] theorem withFetchWord_de :
    (s.withFetchWord nbits w).de = issuedLatch s (BitVec.ofNat 32 (w % 2 ^ nbits)) := rfl
@[simp] theorem withFetchWord_pc : (s.withFetchWord nbits w).pc = s.pc := rfl
@[simp] theorem withFetchWord_x : (s.withFetchWord nbits w).x = s.x := rfl
@[simp] theorem withFetchWord_im : (s.withFetchWord nbits w).im = s.im := rfl
@[simp] theorem withFetchWord_dm : (s.withFetchWord nbits w).dm = s.dm := rfl
@[simp] theorem withFetchWord_ctr : (s.withFetchWord nbits w).ctr = s.ctr := rfl
@[simp] theorem withFetchWord_fd : (s.withFetchWord nbits w).fd = s.fd := rfl
@[simp] theorem withFetchWord_em : (s.withFetchWord nbits w).em = s.em := rfl
@[simp] theorem withFetchWord_mw : (s.withFetchWord nbits w).mw = s.mw := rfl
end

end Sys2Proof.Machine
end

