-- ==== Sys2Proof/Laws/Cycle.lean ====
section
/-! SUPPORT. What a cycle and its stages can do, said once: the inversion lemmas the proofs cite instead of unfolding
the stages. -/

namespace Sys2Proof.Machine

/-! ## The stages -/

/-- Writeback: the register file after it, and when it completes. -/
theorem writebackStage_eq_next {s : State} {x : Vector Word 8} : writebackStage s = .next x ↔
    (isLw s.mw.instr = true ∧ ∃ h : s.mw.dest.toNat < 8, x = s.x.set s.mw.dest.toNat s.mw.memData) ∨
    (isLw s.mw.instr = false ∧ isAlu s.mw.instr = true ∧
      ∃ h : s.mw.dest.toNat < 8, x = s.x.set s.mw.dest.toNat s.mw.aluResult) ∨
    (isLw s.mw.instr = false ∧ isAlu s.mw.instr = false ∧ x = s.x) := by
  unfold writebackStage
  split
  · rename_i h
    simp [h, writeReg_eq_next]
  · split
    · rename_i h h'
      simp [h, h', writeReg_eq_next]
    · rename_i h h'
      simp [-Host.Outcome.next.injEq, h, h', next_eq_next]

/-- Memory: MW' and DM', and when it completes. -/
theorem memoryStage_eq_next {s : State} {m : MemOut} : memoryStage s = .next m ↔
    (s.em.instr = 0 ∧ m = ⟨MW.bubble, s.dm⟩) ∨
    (isLw s.em.instr = true ∧ wordIndex s.em.aluResult < 16 ∧
      m = ⟨⟨s.em.instr, s.em.aluResult, Memory.read s.dm (wordIndex s.em.aluResult), s.em.dest⟩, s.dm⟩) ∨
    (isSw s.em.instr = true ∧ wordIndex s.em.aluResult < 16 ∧
      m = ⟨⟨s.em.instr, s.em.aluResult, 0, 0⟩, Memory.write s.dm (wordIndex s.em.aluResult) s.em.storeData⟩) ∨
    (s.em.instr ≠ 0 ∧ isLw s.em.instr = false ∧ isSw s.em.instr = false ∧
      m = ⟨⟨s.em.instr, s.em.aluResult, 0, s.em.dest⟩, s.dm⟩) := by
  have hx : isLw s.em.instr = true → isSw s.em.instr = false := fun h => by
    rw [isLw_iff] at h
    simp [isSw, h]
  have hl : isLw s.em.instr = true → s.em.instr ≠ 0 := fun h =>
    ne_zero_of_opcode_ne_zero (by rw [(isLw_iff _).1 h]; decide)
  have hs : isSw s.em.instr = true → s.em.instr ≠ 0 := fun h =>
    ne_zero_of_opcode_ne_zero (by rw [(isSw_iff _).1 h]; decide)
  simp only [memoryStage, isNoop_iff]
  split
  · grind [next_eq_next]
  split
  · grind [andThen_eq_next, memRead_eq_next, next_eq_next]
  split
  · grind [andThen_eq_next, memWrite_eq_next, next_eq_next]
  · grind [next_eq_next]

/-- Fetch: the candidate, and when it is defined. -/
theorem fetchStage_eq_next {s : State} {fd : FD} : fetchStage s = .next fd ↔
    wordIndex s.pc < 16 ∧ fd = ⟨Memory.read s.im (wordIndex s.pc), s.pc + 4, s.ctr⟩ := by
  simp [-Host.Outcome.next.injEq, fetchStage, andThen_eq_next, iFetch_eq_next, next_eq_next]

/-- A Decode redirect comes from a `bne` in FD that carries prediction 3, in a cycle without a stall. -/
theorem idRedirect_iff (s : State) : idRedirect s = true ↔
    stall s = false ∧ isBne s.fd.instr = true ∧ s.fd.pred = 3 := by
  simp [idRedirect, predT, and_assoc]

theorem decodeStage_of_zero {s : State} {fd : FD} (h : fd.instr = 0) : decodeStage s fd = DE.bubble := by
  simp [decodeStage, h, isNoop]

theorem decodeStage_of_ne_zero {s : State} {fd : FD} (h : fd.instr ≠ 0) : decodeStage s fd =
    { instr := fd.instr, pcPlus4 := fd.pcPlus4, rs := rsOf fd.instr, rt := rtOf fd.instr, rd := rdOf fd.instr,
      imm := zext32 (immOf fd.instr), target := branchTarget (immOf fd.instr),
      valA := decodeOperand s (rsOf fd.instr), valB := decodeOperand s (rtOf fd.instr),
      dest := destOf fd.instr, pred := fd.pred } := by
  simp only [decodeStage, isNoop_iff]
  rw [if_neg h]

/-- The four cases of the commit. -/
theorem commit_eq_next {s : State} {r : Option Word} {f : Front} : commit s r = .next f ↔
    (∃ t, r = some t ∧ f = ⟨t, FD.bubble, DE.bubble, Events.none⟩) ∨
    (r = none ∧ stall s = true ∧ f = ⟨s.pc, s.fd, DE.bubble, ⟨1, 0, 0⟩⟩) ∨
    (r = none ∧ stall s = false ∧ idRedirect s = true ∧
      f = ⟨branchTarget (immOf s.fd.instr), FD.bubble, decodeStage s s.fd, ⟨1, 1, 0⟩⟩) ∨
    (r = none ∧ stall s = false ∧ idRedirect s = false ∧ wordIndex s.pc < 16 ∧
      f = ⟨s.pc + 4, ⟨Memory.read s.im (wordIndex s.pc), s.pc + 4, s.ctr⟩, decodeStage s s.fd, Events.none⟩) := by
  have ht : idRedirect s = true → (decodeStage s s.fd).target = branchTarget (immOf s.fd.instr) := fun h => by
    have hb := ((idRedirect_iff s).1 h).2.1
    rw [decodeStage_of_ne_zero (ne_zero_of_opcode_ne_zero (by rw [(isBne_iff _).1 hb]; decide))]
  unfold commit
  cases r with
  | some t => simp [-Host.Outcome.next.injEq, next_eq_next]
  | none =>
    simp only
    split
    · rename_i h
      simp [-Host.Outcome.next.injEq, h, next_eq_next]
    · split
      · rename_i h h'
        simp [-Host.Outcome.next.injEq, h, h', ht h', next_eq_next]
      · rename_i h h'
        simp [-Host.Outcome.next.injEq, h, h', andThen_eq_next, fetchStage_eq_next, next_eq_next]

/-! ## The cycle and the step -/

/-- A cycle completes exactly when its Writeback, Memory and commit do. -/
theorem cycle_eq_next {s t : State} {ex : ExOut} : cycle s ex = .next t ↔
    ∃ x m f, writebackStage s = .next x ∧ memoryStage s = .next m ∧ commit s ex.redirect = .next f ∧
      t = assemble s ex x m f := by
  simp only [cycle, andThen_eq_next, Host.Outcome.next.injEq]
  constructor
  · rintro ⟨x, hx, m, hm, f, hf, rfl⟩
    exact ⟨x, m, f, hx, hm, hf, rfl⟩
  · rintro ⟨x, m, f, hx, hm, hf, rfl⟩
    exact ⟨x, hx, m, hm, f, hf, rfl⟩

/-- What the state admits: its words are well-formed and the one in DE decodes. -/
theorem instrInExecute_eq_ok {s : State} {i : Instr} : instrInExecute s = .ok i ↔
    firstReserved s.im = none ∧ wellFormedWord s.fd.instr = true ∧ wellFormedWord s.em.instr = true ∧
      wellFormedWord s.mw.instr = true ∧ decode s.de.instr = .ok i := by
  unfold instrInExecute
  cases firstReserved s.im with
  | some c => simp
  | none =>
    simp only [true_and]
    cases hf : wellFormedWord s.fd.instr <;> cases he : wellFormedWord s.em.instr <;>
      cases hm : wellFormedWord s.mw.instr <;> simp [hf, he, hm]
    cases decode s.de.instr <;> simp

/-- A step that answers a next state runs the instruction that DE's word decodes to, in a state that is not halted
and holds no reserved word. -/
theorem step_eq_next {s t : State} : step s = .next t ↔
    halted s = false ∧ ∃ i, instrInExecute s = .ok i ∧ exec i s = .next t := by
  unfold step
  cases halted s with
  | true => simp
  | false =>
    cases instrInExecute s <;> simp

/-! ## The instruction in Execute -/

/-- What the instruction hands to the cycle. -/
def exOut (i : Instr) (s : State) : ExOut :=
  match i with
  | .add _ _ _ => ExOut.plain s (aluOut s (operandA s + operandB s))
  | .sub _ _ _ => ExOut.plain s (aluOut s (operandA s - operandB s))
  | .lw _ _ _ => ExOut.plain s ⟨s.de.instr, effectiveAddress s, 0, s.de.dest⟩
  | .sw _ _ _ => ExOut.plain s ⟨s.de.instr, effectiveAddress s, operandB s, 0⟩
  | .bne _ _ _ => bneOut s
  | .halt _ => ExOut.plain s ⟨s.de.instr, 0, 0, 0⟩
  | .noop => ExOut.plain s EM.bubble

/-- Every meaning is the cycle around its own Execute stage. -/
theorem exec_eq_cycle (i : Instr) (s : State) : exec i s = cycle s (exOut i s) := by
  cases i <;> rfl

/-- The redirect of the instruction that DE's word decodes to is `exRedirect`. -/
theorem exOut_redirect {s : State} {i : Instr} (h : DecodesTo s.de.instr i) :
    (exOut i s).redirect = exRedirect s := by
  have hb : ∀ {o : BitVec 6}, opcode s.de.instr = o → o ≠ 4 → exRedirect s = none := fun ho hn => by
    rw [exRedirect, if_neg]
    simpa only [isBne, ho, beq_iff_eq] using hn
  cases h with
  | noop h0 => exact (hb (by rw [h0]; decide : opcode s.de.instr = 0) (by decide)).symm
  | add ho _ _ _ => exact (hb ho (by decide)).symm
  | sub ho _ _ _ => exact (hb ho (by decide)).symm
  | lw ho _ => exact (hb ho (by decide)).symm
  | sw ho _ => exact (hb ho (by decide)).symm
  | bne ho _ => simp [exOut, exRedirect, isBne, ho]
  | halt ho => exact (hb ho (by decide)).symm

/-- Everything a step that answers a next state can do: it runs the instruction DE's word decodes to, and the next
state is assembled from that instruction's Execute stage, Writeback, Memory and the commit. -/
theorem step_cases {s t : State} (h : step s = .next t) : ∃ i x m f,
    halted s = false ∧ instrInExecute s = .ok i ∧ DecodesTo s.de.instr i ∧
    writebackStage s = .next x ∧ memoryStage s = .next m ∧ commit s (exRedirect s) = .next f ∧
    t = assemble s (exOut i s) x m f := by
  obtain ⟨hh, i, hi, he⟩ := step_eq_next.1 h
  have hd := decode_cases (instrInExecute_eq_ok.1 hi).2.2.2.2
  rw [exec_eq_cycle] at he
  obtain ⟨x, m, f, hx, hm, hf, rfl⟩ := cycle_eq_next.1 he
  exact ⟨i, x, m, f, hh, hi, hd, hx, hm, exOut_redirect hd ▸ hf, rfl⟩

end Sys2Proof.Machine
end

