-- ==== Sys2Proof/Laws/PerInstr.lean ====
section
/-! SUPPORT. Statements made for every instruction, one lemma per constructor. TableRow: the word of a well-formed
instruction is the match value of its row of 30_encoding.md R99 under the row's strict mask. -/

namespace Sys2Proof.Laws.TableRow

/-- The instruction's word matches its row of the opcode table. -/
def Statement (i : Instr) : Prop :=
  i.wf = true → ∃ r, opcodeTable[i.row]? = some r ∧ r.matchesStrictly (encode i) = true

/-- A register number below 8 has its two high bits clear. -/
theorem high_bits_of_named : ∀ n : RegNum, RegNum.named n = true → n[3] = false ∧ n[4] = false := by
  decide

theorem encodeR_matches {rs rt rd : RegNum} (f : BitVec 6) (hs : RegNum.named rs = true)
    (ht : RegNum.named rt = true) (hd : RegNum.named rd = true) :
    encodeR rs rt rd f &&& 0xFF18C7FF = (0#26 ++ f : BitVec (26 + 6)) := by
  obtain ⟨hs3, hs4⟩ := high_bits_of_named rs hs
  obtain ⟨ht3, ht4⟩ := high_bits_of_named rt ht
  obtain ⟨hd3, hd4⟩ := high_bits_of_named rd hd
  apply BitVec.eq_of_getLsbD_eq
  intro i hi
  simp only [BitVec.getLsbD_and, getLsbD_encodeR, BitVec.getLsbD_append]
  interval_cases i <;> simp [hs3, hs4, ht3, ht4, hd3, hd4]

theorem encodeI_matches {rs rt : RegNum} (op : BitVec 6) (imm : Imm16) (hs : RegNum.named rs = true)
    (ht : RegNum.named rt = true) :
    encodeI op rs rt imm &&& 0xFF180000 = (op ++ 0#26 : BitVec (6 + 26)) := by
  obtain ⟨hs3, hs4⟩ := high_bits_of_named rs hs
  obtain ⟨ht3, ht4⟩ := high_bits_of_named rt ht
  apply BitVec.eq_of_getLsbD_eq
  intro i hi
  simp only [BitVec.getLsbD_and, getLsbD_encodeI, BitVec.getLsbD_append]
  interval_cases i <;> simp [hs3, hs4, ht3, ht4]

theorem add (rd rs rt : RegNum) : Statement (.add rd rs rt) := by
  intro h
  simp only [Instr.wf, Bool.and_eq_true] at h
  refine ⟨_, rfl, ?_⟩
  simp only [Row.matchesStrictly, beq_iff_eq]
  exact (encodeR_matches 32 h.1.2 h.2 h.1.1).trans (by decide)

theorem sub (rd rs rt : RegNum) : Statement (.sub rd rs rt) := by
  intro h
  simp only [Instr.wf, Bool.and_eq_true] at h
  refine ⟨_, rfl, ?_⟩
  simp only [Row.matchesStrictly, beq_iff_eq]
  exact (encodeR_matches 34 h.1.2 h.2 h.1.1).trans (by decide)

theorem lw (rt : RegNum) (imm : Imm16) (rs : RegNum) : Statement (.lw rt imm rs) := by
  intro h
  simp only [Instr.wf, Bool.and_eq_true] at h
  refine ⟨_, rfl, ?_⟩
  simp only [Row.matchesStrictly, beq_iff_eq]
  exact (encodeI_matches 35 imm h.2 h.1).trans (by decide)

theorem sw (rt : RegNum) (imm : Imm16) (rs : RegNum) : Statement (.sw rt imm rs) := by
  intro h
  simp only [Instr.wf, Bool.and_eq_true] at h
  refine ⟨_, rfl, ?_⟩
  simp only [Row.matchesStrictly, beq_iff_eq]
  exact (encodeI_matches 43 imm h.2 h.1).trans (by decide)

theorem bne (rs rt : RegNum) (imm : Imm16) : Statement (.bne rs rt imm) := by
  intro h
  simp only [Instr.wf, Bool.and_eq_true] at h
  refine ⟨_, rfl, ?_⟩
  simp only [Row.matchesStrictly, beq_iff_eq]
  exact (encodeI_matches 4 imm h.1 h.2).trans (by decide)

theorem halt (unused : BitVec 26) : Statement (.halt unused) := by
  intro _
  refine ⟨_, rfl, ?_⟩
  simp only [Row.matchesStrictly, beq_iff_eq]
  apply BitVec.eq_of_getLsbD_eq
  intro i hi
  simp only [BitVec.getLsbD_and, getLsbD_encode_halt]
  interval_cases i <;> simp

theorem noop : Statement .noop := fun _ => ⟨_, rfl, by decide⟩

end Sys2Proof.Laws.TableRow
end

