-- ==== Sys2Proof/Laws/Reference.lean ====
section
/-! SUPPORT. What the reference execution can do, said once: its fetch, the one instruction that ends it, and its run
unrolled by a round. -/

namespace Sys2Proof.Machine

/-- The reference fetches what the word at `pc` decodes to. -/
theorem refFetch_eq_next {im : Memory} {a : Arch} {i : Instr} : refFetch im a = .next i ↔
    wordIndex a.pc < 16 ∧ decode (Memory.read im (wordIndex a.pc)) = .ok i := by
  simp only [refFetch, andThen_eq_next, iFetch_eq_next]
  constructor
  · rintro ⟨w, ⟨hp, rfl⟩, hw⟩
    split at hw <;> simp_all
  · rintro ⟨hp, hd⟩
    exact ⟨_, ⟨hp, rfl⟩, by rw [hd]⟩

/-- The `halt` and nothing else ends the reference execution (R126). -/
theorem refExec_eq_halted {i : Instr} {a : Arch} : refExec i a = .fault .halted ↔ ∃ unused, i = .halt unused := by
  cases i <;> simp [refExec, andThen_eq_fault, writeReg, memRead, memWrite] <;> grind

/-- A finished reference run is at a `halt`, or goes on from the state after one instruction. -/
theorem refRun_succ_eq_next {im : Memory} {k : Nat} {a c : Arch} : refRun im (k + 1) a = some (.next c) ↔
    (∃ unused, refFetch im a = .next (.halt unused) ∧ c = a) ∨
    ∃ i b, refFetch im a = .next i ∧ refExec i a = .next b ∧ refRun im k b = some (.next c) := by
  have hf : ∀ {e}, refFetch im a = .fault e → e ≠ .halted := by
    intro e he hh
    simp only [refFetch, andThen_eq_fault, iFetch] at he
    rcases he with he | ⟨w, -, he⟩
    · split at he <;> simp_all
    · split at he <;> simp_all
  simp only [refRun, refStep]
  cases hr : refFetch im a with
  | fault e => simp only [andThen_fault]; cases e <;> simp_all
  | refused e => simp
  | next i =>
    simp only [andThen_next, Host.Outcome.next.injEq]
    cases he : refExec i a with
    | next b =>
      have hn : ∀ u, i ≠ .halt u := by
        rintro u rfl
        simp [refExec] at he
      simp [hn, he]
    | fault e =>
      by_cases hh : e = .halted
      · subst hh
        obtain ⟨u, rfl⟩ := refExec_eq_halted.1 he
        simp [refExec, eq_comm]
      · have hn : ∀ u, i ≠ .halt u := by
          rintro u rfl
          exact hh (by simpa [refExec, eq_comm] using he)
        cases e <;> simp_all
    | refused e =>
      have hn : ∀ u, i ≠ .halt u := by
        rintro u rfl
        simp [refExec] at he
      simp [hn, he]

end Sys2Proof.Machine
end

