-- ==== Sys2Proof/Tests/Slice0.lean ====
section
/-! SUPPORT. The model's own tests: ill-formed terms refused, words of the spec decoded, single cycles of
95_test_vectors.md, and for every statement with hypotheses a witness that meets them together. -/

namespace Sys2Proof.Tests

open Sys2Proof.Machine

/-! ## WellFormed smoke: one ill-formed term for each check (R98, R100) -/

theorem test_wf_add_rd : (Instr.add 8 0 0).wf = false := by decide
theorem test_wf_add_rs : (Instr.add 0 8 0).wf = false := by decide
theorem test_wf_add_rt : (Instr.add 0 0 31).wf = false := by decide
theorem test_wf_sub_rd : (Instr.sub 16 0 0).wf = false := by decide
theorem test_wf_sub_rs : (Instr.sub 0 8 0).wf = false := by decide
theorem test_wf_sub_rt : (Instr.sub 0 0 8).wf = false := by decide
theorem test_wf_lw_rt : (Instr.lw 8 0 0).wf = false := by decide
theorem test_wf_lw_rs : (Instr.lw 0 0 8).wf = false := by decide
theorem test_wf_sw_rt : (Instr.sw 8 0 0).wf = false := by decide
theorem test_wf_sw_rs : (Instr.sw 0 0 8).wf = false := by decide
theorem test_wf_bne_rs : (Instr.bne 8 0 0).wf = false := by decide
theorem test_wf_bne_rt : (Instr.bne 0 8 0).wf = false := by decide
theorem test_wf_highest_register : (Instr.add 7 7 7).wf = true := by decide

/-! ## Decoding: words written out from the formats R92 to R95, and the rejected words of vector T7 -/

theorem test_decode_add : decode (0b000000_00010_00011_00001_00000_100000) = .ok (.add 1 2 3) := by decide
theorem test_decode_sub : decode (0b000000_00100_00001_00110_00000_100010) = .ok (.sub 6 4 1) := by decide
theorem test_decode_lw : decode (0b100011_00001_00010_1111111111111100) = .ok (.lw 2 0xFFFC 1) := by decide
theorem test_decode_sw : decode (0b101011_00000_00001_0000000000000100) = .ok (.sw 1 4 0) := by decide
theorem test_decode_bne : decode (0b000100_00001_00000_0000000000000011) = .ok (.bne 1 0 3) := by decide
theorem test_decode_halt : decode 0xFC123456 = .ok (.halt 0x123456) := by decide
theorem test_decode_noop : decode 0 = .ok .noop := by decide
theorem test_decode_add_zero : decode 0x00000020 = .ok (.add 0 0 0) := by decide
theorem test_reject_funct : decode 0x00000021 = .error (.funct 33) := by decide
theorem test_reject_shamt : decode 0x00430860 = .error (.shamt 1) := by decide
theorem test_reject_rs : decode 0x01000020 = .error .register := by decide
theorem test_reject_rd : decode 0x00004020 = .error .register := by decide
theorem test_reject_opcode : decode 0x14200000 = .error (.opcode 5) := by decide
theorem test_reject_lw_rt : decode 0x8C080000 = .error .register := by decide
theorem test_encode_lw : encode (.lw 1 8 0) = 0x8C010008 := by decide
theorem test_table_word : decodeTableWord 32 0xAC010004 = some (.sw 1 4 0) := by decide

/-! ## Single cycles (95_test_vectors.md) -/

/-- A register file. -/
def regs (l : List Word) : Vector Word 8 := Vector.ofFn fun i => l.getD i 0

/-- A state with an instruction in Execute, its captured operands and carried prediction, after fetch at address 0. -/
def executing (i : Instr) (a b : Word) (pred : PredCounter) (s : State) : State :=
  { s with de := { decodeStage s ⟨encode i, 4, pred⟩ with valA := a, valB := b } }

/-- The start state the cycles below begin from. -/
def base : State := { State.reset with pc := 8, x := regs [0, 20, 8, 12, 3, 5, 6, 7] }

/-- The example of R121: 8 + 12 = 20 into register 1. -/
theorem test_add : (valueOf (step (executing (.add 1 2 3) 8 12 0 base))).map (·.em) =
    some ⟨0x00430820, 20, 0, 1⟩ := by decide

/-- Vector 2.1: FFFFFFFF + 1 wraps. -/
theorem test_add_wraps : (valueOf (step (executing (.add 3 1 2) 0xFFFFFFFF 1 0 base))).map (·.em.aluResult) =
    some 0 := by decide

/-- Vector T2, cycle 4: the stale operand is replaced by the result in EM. -/
theorem test_sub_forwarded : (valueOf (step { executing (.sub 4 1 5) 0 2 0 base with
    em := ⟨0x00430820, 12, 0, 1⟩ })).map (·.em) = some ⟨0x00252022, 10, 0, 4⟩ := by decide

/-- R122: 3 - 20. -/
theorem test_sub_borrows : (valueOf (step (executing (.sub 6 4 1) 3 20 0 base))).map (·.em.aluResult) =
    some 0xFFFFFFEF := by decide

/-- Vector 2.2: the immediate is not sign-extended. -/
theorem test_lw_address : (valueOf (step (executing (.lw 2 0xFFFC 1) 8 0 0 base))).map (·.em) =
    some ⟨0x8C22FFFC, 0x10004, 0, 2⟩ := by decide

/-- Vector P6, cycle 5: the base is not forwarded in Execute. -/
theorem test_lw_stale_base : (valueOf (step { executing (.lw 2 0 1) 0 0 0 base with
    mw := ⟨0x8C010000, 0, 8, 1⟩ })).map (·.em.aluResult) = some 0 := by decide

/-- Vector T3b, cycle 5: the stored value is forwarded from the load in MW. -/
theorem test_sw_forwarded : (valueOf (step { executing (.sw 1 4 0) 0 0 0 base with
    mw := ⟨0x8C010000, 0, 9, 1⟩ })).map (·.em) = some ⟨0xAC010004, 4, 9, 0⟩ := by decide

/-- Vector 2.2: a store to address 7 writes word 1. -/
theorem test_sw_memory : (valueOf (step { base with em := ⟨0xAC010007, 7, 5, 0⟩ })).map (·.dm) =
    some [(1, 5)] := by decide

/-- Vector 2.2: address 63 reads word 15. -/
theorem test_lw_memory : (valueOf (step { base with dm := [(15, 77)], em := ⟨0x8C02003F, 63, 0, 2⟩ })).map (·.mw) =
    some ⟨0x8C02003F, 63, 77, 2⟩ := by decide

/-- Vector 2.2: address 64 is out of range. -/
theorem test_data_out_of_range : faultOf (step { base with em := ⟨0xAC010040, 64, 5, 0⟩ }) =
    some (.dataAddressOutOfRange 64) := by decide

/-- R156 with R20: register 0 is an ordinary register. -/
theorem test_writeback_zero : (valueOf (step { base with mw := ⟨0x00210020, 6, 0, 0⟩ })).map (·.x[0]) =
    some 6 := by decide

/-- Vector P4, cycle 3: taken, not predicted taken at 2. -/
theorem test_bne_taken : (valueOf (step (executing (.bne 1 0 3) 1 0 2 { base with ctr := 2 }))).map
    (fun t => (t.pc, t.fd, t.ctr, t.stalls, t.branches, t.mispredicts)) =
    some (12, FD.bubble, 3, 1, 1, 1) := by decide

/-- Vector P5, cycle 3: not taken, predicted taken; back to the branch's own PC + 4. -/
theorem test_bne_back : (valueOf (step (executing (.bne 0 0 4) 0 0 3 { base with pc := 16, ctr := 3 }))).map
    (fun t => (t.pc, t.fd, t.ctr, t.stalls, t.branches, t.mispredicts)) =
    some (4, FD.bubble, 2, 0, 0, 1) := by decide

/-- Vector P4 with PRED_RESET 3, cycle 2: the redirect at Decode. -/
theorem test_bne_decode : (valueOf (step { base with pc := 4, fd := ⟨0x10200003, 4, 3⟩ })).map
    (fun t => (t.pc, t.fd, t.de.instr, t.stalls, t.branches)) =
    some (12, FD.bubble, 0x10200003, 1, 1) := by decide

/-- R153: a halt sends zeros, its unused bits stay in the word. -/
theorem test_halt : (valueOf (step (executing (.halt 0x3FFFFFF) 1 2 0 base))).map (·.em) =
    some ⟨0xFFFFFFFF, 0, 0, 0⟩ := by decide

/-- R146: register 31 of a halt word reads as 0 in Decode. -/
theorem test_halt_decode : (valueOf (step { base with fd := ⟨0xFFFFFFFF, 8, 0⟩ })).map
    (fun t => (t.de.valA, t.de.rs)) = some (0, 31) := by decide

/-- R153: a noop in Execute sends the bubble. -/
theorem test_noop : (valueOf (step (executing .noop 1 2 0 base))).map (fun t => (t.em, t.pc, t.cycles)) =
    some (EM.bubble, 12, 1) := by decide

/-- Vector 2.4: the halt FC010000 stalls behind a load of register 1. -/
theorem test_stall : (valueOf (step { executing (.lw 1 0 0) 0 0 0 base with fd := ⟨0xFC010000, 8, 0⟩ })).map
    (fun t => (t.pc, t.fd.instr, t.de, t.stalls)) = some (8, 0xFC010000, DE.bubble, 1) := by decide

/-- R65: a fetch at 64 is out of range when it would be latched. -/
theorem test_fetch_out_of_range : faultOf (step { base with pc := 64 }) = some (.fetchOutOfRange 64) := by decide

/-- R160: no step from a halted state. -/
theorem test_halted : faultOf (step { base with mw := ⟨0xFC000000, 0, 0, 0⟩ }) = some .halted := by decide

/-- R101: a program with the word 00000021 is refused. -/
theorem test_reserved : refusalOf (step (State.launch { im := [(3, 0x21)] })) =
    some (.reservedInstruction 3 0x21) := by decide

/-! ## Witnesses: states and operands that meet the hypotheses of each statement together -/

/-- Nothing in flight, PC at 8. -/
theorem base_invariant : Invariant base := by
  constructor <;> first | decide | (constructor <;> decide)

/-- A `bne` with prediction 2 in Execute, a store in EM at the last word, a load in MW. -/
def busy : State :=
  { executing (.bne 1 0 3) 1 0 2 base with
    fd := ⟨0x00631020, 8, 2⟩, em := ⟨0xAC01003F, 63, 5, 0⟩, mw := ⟨0x8C020000, 0, 77, 2⟩, ctr := 2 }

theorem busy_invariant : Invariant busy := by
  constructor <;> first | decide | (constructor <;> decide)

theorem witness_DecodeOfEncodeIsIdentity : (Instr.lw 7 0xFFFF 7).wf = true := by decide
theorem witness_EncodeOfDecodeIsIdentity : decode 0xFFFFFFFF = .ok (.halt 0x3FFFFFF) := by decide
theorem witness_ReservedProgramIsRefused :
    Memory.wf [(2, 0xFC000000), (15, 0x21)] = true ∧
    wellFormedWord (Memory.read [(2, 0xFC000000), (15, 0x21)] 15) = false ∧
    ∀ k < 15, wellFormedWord (Memory.read [(2, 0xFC000000), (15, 0x21)] k) = true := by decide
theorem witness_LaunchMeetsInvariant :
    Launch.ok { im := [(0, 0x00430820), (15, 0xFC000000)], dm := [(15, 1)], pred := 3 } = true := by decide
theorem witness_StepKeepsInvariant : Invariant busy ∧ (valueOf (step busy)).isSome = true :=
  ⟨busy_invariant, by decide⟩
theorem witness_CanonicalMemoriesWithEqualWordsAreEqual :
    Memory.wf [(0, 1), (15, 2)] = true ∧ Memory.wf (Memory.write [(15, 2)] 0 1) = true ∧
    ∀ i < 16, Memory.read [(0, 1), (15, 2)] i = Memory.read (Memory.write [(15, 2)] 0 1) i := by decide
theorem witness_StepRunsTheDecodedInstruction :
    halted busy = false ∧ wordsOk busy = true ∧ decode busy.de.instr = .ok (.bne 1 0 3) := by decide

/-- Two cycles from launch of a program whose first word is an `add`. -/
def fetching : State := State.launch { im := [(0, 0x00430820), (1, 0xFC000000)] }
/-- The state one cycle later. -/
def fetched : State := (valueOf (step fetching)).getD fetching

theorem witness_FetchedWordIsExecutedTwoCyclesLater :
    valueOf (step fetching) = some fetched ∧ (valueOf (step fetched)).isSome = true ∧
    exRedirect fetching = none ∧ stall fetching = false ∧ idRedirect fetching = false ∧
    exRedirect fetched = none ∧ stall fetched = false ∧ (valueOf (step fetched)).map halted = some false := by decide
theorem witness_WithFetchWordRunsTheWord :
    (0x8C22FFFC < 2 ^ 32) ∧ halted State.reset = false ∧ wordsOk State.reset = true ∧
    decodeTableWord 32 0x8C22FFFC = some (.lw 2 0xFFFC 1) := by decide

/-- A load in EM at the given address. -/
def loading (a : Word) : State := { base with em := ⟨0x8C020000, a, 0, 2⟩ }

theorem loading_invariant : Invariant (loading 64) := by
  constructor <;> first | decide | (constructor <;> decide)

theorem witness_StepOutcomes_data : Invariant (loading 64) ∧ halted (loading 64) = false ∧
    dataInRange (loading 64) = false ∧ dataInRange (loading 63) = true ∧ fetchInRange (loading 63) = true :=
  ⟨loading_invariant, by decide, by decide, by decide, by decide⟩
theorem witness_StepOutcomes_fetch : dataInRange { base with pc := 64 } = true ∧
    exRedirect { base with pc := 64 } = none ∧ fetchInRange { base with pc := 64 } = false ∧
    fetchInRange { base with pc := 60 } = true ∧ halted { base with pc := 64 } = false := by decide
theorem witness_StepOutcomes_redirect : exRedirect busy ≠ none ∧ dataInRange busy = true := by decide

theorem witness_WritebackWritesOnlyTheDestination :
    (valueOf (step busy)).isSome = true ∧ isLw busy.mw.instr = true ∧ busy.mw.dest = 2 ∧
    (valueOf (step base)).isSome = true ∧ isLw base.mw.instr = false ∧ isAlu base.mw.instr = false := by decide
theorem witness_MemoryStageAccessesOneWord :
    (valueOf (step busy)).isSome = true ∧ isSw busy.em.instr = true ∧
    (valueOf (step base)).isSome = true ∧ isSw base.em.instr = false := by decide

/-- A load of register 1 in Execute with a reader of register 1 in FD, and PC out of range. -/
def stalling : State := { executing (.lw 1 0 0) 0 0 0 base with pc := 64, fd := ⟨0x00211020, 8, 0⟩ }
/-- A `bne` in FD that carries prediction 3. -/
def redirecting (c : PredCounter) : State := { base with fd := ⟨0x10200003, 4, c⟩ }

theorem stalling_invariant : Invariant stalling := by
  constructor <;> first | decide | (constructor <;> decide)

theorem witness_FetchLatchesTheNextWord :
    ((valueOf (step base)).isSome = true ∧ exRedirect base = none ∧ stall base = false ∧ idRedirect base = false) ∧
    ((valueOf (step stalling)).isSome = true ∧ stall stalling = true) ∧
    (Invariant stalling ∧ halted stalling = false ∧ dataInRange stalling = true) :=
  ⟨by decide, by decide, stalling_invariant, by decide, by decide⟩
theorem witness_DecodeLatchesItsCandidate :
    (valueOf (step (redirecting 0))).isSome = true ∧ exRedirect (redirecting 0) = none ∧
    stall (redirecting 0) = false ∧ (redirecting 0).fd.instr ≠ 0 ∧ base.fd.instr = 0 := by decide
theorem witness_CommitPriority :
    (valueOf (step busy)).isSome = true ∧ exRedirect busy = some 12 ∧
    (valueOf (step stalling)).isSome = true ∧ exRedirect stalling = none := by decide
/-- The word `w` in FD behind `p` in Execute. -/
def behind (p : Instr) (w : Word) : State := { executing p 0 0 0 base with fd := ⟨w, 8, 0⟩ }

/-- R182: an `add` that reads register 1 stalls behind a `sw` of it and does not stall behind an `add` that writes
it. -/
theorem witness_StallProducers :
    wellFormedWord (behind (.sw 1 0 0) 0x00411020).de.instr = true ∧ stall (behind (.sw 1 0 0) 0x00411020) = true ∧
    wellFormedWord (behind (.add 1 2 3) 0x00411020).de.instr = true ∧
    stall (behind (.add 1 2 3) 0x00411020) = false := by decide
/-- R183: a `noop` behind a `sw` or `lw` of register 0, a `halt` whose unused bits spell register 7 and a `lw` compared
on its own `rt` stall; a word neither of whose fields is the register does not. -/
theorem witness_StallConsumers :
    stall (behind (.sw 0 0 0) 0) = true ∧ stall (behind (.lw 0 0 0) 0) = true ∧
    stall (behind (.sw 7 0 0) 0xFC070000) = true ∧ stall (behind (.lw 7 0 0) 0x8C070000) = true ∧
    stall (behind (.sw 7 0 0) 0x00411020) = false := by decide
theorem witness_StallDestination :
    Invariant (behind (.sw 7 0 0) 0xFC070000) ∧ isSw (behind (.sw 7 0 0) 0xFC070000).de.instr = true :=
  ⟨by constructor <;> first | decide | (constructor <;> decide), by decide⟩
/-- A `sw` that stalls the word behind it, and the cycle after. -/
theorem witness_StallBehindStore :
    stall (behind (.sw 1 0 0) 0x00411020) = true ∧
    ((valueOf (step (behind (.sw 1 0 0) 0x00411020))).bind fun t => valueOf (step t)).isSome = true := by decide
theorem witness_StallHoldsOneCycle :
    (valueOf (step stalling)).isSome = true ∧ stall stalling = true ∧
    (valueOf (step { stalling with pc := 8 })).bind (fun t => valueOf (step t)) ≠ none := by decide
theorem witness_DecodeRedirectsPredictedBranch :
    ((valueOf (step (redirecting 3))).isSome = true ∧ exRedirect (redirecting 3) = none ∧
      stall (redirecting 3) = false ∧ isBne (redirecting 3).fd.instr = true ∧ (redirecting 3).fd.pred = 3) ∧
    ((valueOf (step (redirecting 2))).isSome = true ∧ isBne (redirecting 2).fd.instr = true ∧
      (redirecting 2).fd.pred ≠ 3) := by decide

/-- The latch `executing` builds holds the instruction. -/
theorem executing_holds (i : Instr) (a b : Word) (c : PredCounter) (s : State) (h : encode i ≠ 0) :
    (executing i a b c s).de.Holds i := by
  have hn : isNoop (encode i) = false := by simpa [isNoop] using h
  simp only [executing, decodeStage, hn, Bool.false_eq_true, if_false]
  exact ⟨rfl, rfl, rfl, rfl, rfl, rfl, rfl⟩

/-- The conditions on a state under which a meaning without redirect completes. -/
def ready (s : State) : Bool := writebackNamed s && dataInRange s && fetchInRange s

theorem witness_AddAndSubExecute :
    (executing (.add 7 0 7) 1 2 0 base).de.Holds (.add 7 0 7) ∧ ready (executing (.add 7 0 7) 1 2 0 base) = true ∧
    (executing (.sub 0 7 0) 1 2 0 base).de.Holds (.sub 0 7 0) ∧ ready (executing (.sub 0 7 0) 1 2 0 base) = true :=
  ⟨executing_holds _ _ _ _ _ (by decide), by decide, executing_holds _ _ _ _ _ (by decide), by decide⟩
theorem witness_LoadAndStoreExecute :
    (executing (.lw 7 0xFFFF 0) 1 2 0 base).de.Holds (.lw 7 0xFFFF 0) ∧
    ready (executing (.lw 7 0xFFFF 0) 1 2 0 base) = true ∧
    (executing (.sw 0 0 7) 1 2 0 base).de.Holds (.sw 0 0 7) ∧ ready (executing (.sw 0 0 7) 1 2 0 base) = true :=
  ⟨executing_holds _ _ _ _ _ (by decide), by decide, executing_holds _ _ _ _ _ (by decide), by decide⟩
theorem witness_HaltAndNoopExecute :
    (executing (.halt 0x3FFFFFF) 1 2 0 base).de.Holds (.halt 0x3FFFFFF) ∧
    ready (executing (.halt 0x3FFFFFF) 1 2 0 base) = true ∧ base.de.Holds .noop ∧ ready base = true :=
  ⟨executing_holds _ _ _ _ _ (by decide), by decide, ⟨by decide, by constructor <;> decide⟩, by decide⟩

/-- A `bne $1,$0,3` in Execute, with operand, prediction and PC. -/
def branching (a : Word) (c : PredCounter) (pc : Word) : State := { executing (.bne 1 0 3) a 0 c base with pc := pc }

theorem branching_holds (a : Word) (c : PredCounter) (pc : Word) : (branching a c pc).de.Holds (.bne 1 0 3) :=
  executing_holds _ a 0 c base (by decide)

theorem witness_BneTakenNotPredictedRedirects :
    (branching 1 2 64).de.Holds (.bne 1 0 3) ∧ writebackNamed (branching 1 2 64) = true ∧
    dataInRange (branching 1 2 64) = true ∧ (branching 1 2 64).de.pred ≠ 3 ∧
    fwdEX (branching 1 2 64) 1 (branching 1 2 64).de.valA ≠ fwdEX (branching 1 2 64) 0 (branching 1 2 64).de.valB :=
  ⟨branching_holds _ _ _, by decide, by decide, by decide, by decide⟩
theorem witness_BneTakenPredictedGoesOn :
    (branching 1 3 60).de.Holds (.bne 1 0 3) ∧ ready (branching 1 3 60) = true ∧ (branching 1 3 60).de.pred = 3 ∧
    fwdEX (branching 1 3 60) 1 (branching 1 3 60).de.valA ≠ fwdEX (branching 1 3 60) 0 (branching 1 3 60).de.valB :=
  ⟨branching_holds _ _ _, by decide, by decide, by decide⟩
theorem witness_BneNotTakenPredictedGoesBack :
    (branching 0 3 64).de.Holds (.bne 1 0 3) ∧ writebackNamed (branching 0 3 64) = true ∧
    dataInRange (branching 0 3 64) = true ∧ (branching 0 3 64).de.pred = 3 ∧
    fwdEX (branching 0 3 64) 1 (branching 0 3 64).de.valA = fwdEX (branching 0 3 64) 0 (branching 0 3 64).de.valB :=
  ⟨branching_holds _ _ _, by decide, by decide, by decide, by decide⟩
theorem witness_BneNotTakenNotPredictedGoesOn :
    (branching 0 2 60).de.Holds (.bne 1 0 3) ∧ ready (branching 0 2 60) = true ∧ (branching 0 2 60).de.pred ≠ 3 ∧
    fwdEX (branching 0 2 60) 1 (branching 0 2 60).de.valA = fwdEX (branching 0 2 60) 0 (branching 0 2 60).de.valB :=
  ⟨branching_holds _ _ _, by decide, by decide, by decide⟩

theorem witness_ResolutionTrainsThePredictor :
    (valueOf (step busy)).isSome = true ∧ isBne busy.de.instr = true ∧
    (valueOf (step base)).isSome = true ∧ isBne base.de.instr = false := by decide
theorem witness_PredictTakenOnlyAtThree : predT 3 = true ∧ predT 2 = false := by decide

/-- A load of register 1 in FD, a writer of register 1 in Execute. -/
def feeding : State :=
  { executing (.add 1 2 3) 8 12 0 base with fd := ⟨0x8C240000, 8, 0⟩ }

theorem feeding_invariant : Invariant feeding := by
  constructor <;> first | decide | (constructor <;> decide)

theorem witness_ForwardingDeliversProgramOrderValues :
    Invariant feeding ∧ (valueOf (step feeding)).isSome = true := ⟨feeding_invariant, by decide⟩
/-- The last two premises fail of a writer in DE and hold of an idle pipeline. -/
theorem witness_BaseRegisterIsCapturedAtDecode :
    (valueOf (step feeding)).map (fun t => isLw t.de.instr) = some true ∧
    Invariant { base with fd := ⟨0x8C240000, 8, 0⟩ } ∧
    (valueOf (step { base with fd := ⟨0x8C240000, 8, 0⟩ })).map (fun t => isLw t.de.instr) = some true ∧
    writesRegister base.de.instr = false ∧ writesRegister base.em.instr = false :=
  ⟨by decide, by constructor <;> first | decide | (constructor <;> decide), by decide, by decide, by decide⟩
theorem witness_LoadReadsTheStoreBeforeIt :
    (valueOf (step { executing (.lw 4 63 0) 0 0 0 base with em := ⟨0xAC01003F, 60, 5, 0⟩ })).map
      (fun t => (isLw t.em.instr, wordIndex t.em.aluResult, (valueOf (step t)).isSome)) = some (true, 15, true) := by
  decide

/-- How many cycles of three the state completes. -/
def threeCycles (s : State) : Option State :=
  ((valueOf (step s)).bind fun t => valueOf (step t)).bind fun u => valueOf (step u)

theorem witness_AluResultReachesTheRegisterFile :
    Invariant feeding ∧ isAdd feeding.de.instr = true ∧ (threeCycles feeding).isSome = true :=
  ⟨feeding_invariant, by decide, by decide⟩
theorem witness_SubResultReachesTheRegisterFile :
    Invariant (executing (.sub 1 2 3) 8 12 0 base) ∧ isSub (executing (.sub 1 2 3) 8 12 0 base).de.instr = true ∧
    (threeCycles (executing (.sub 1 2 3) 8 12 0 base)).isSome = true :=
  ⟨by constructor <;> first | decide | (constructor <;> decide), by decide, by decide⟩
theorem witness_LoadedWordReachesTheRegisterFile :
    Invariant (executing (.lw 7 63 0) 0 0 0 base) ∧ isLw (executing (.lw 7 63 0) 0 0 0 base).de.instr = true ∧
    (threeCycles (executing (.lw 7 63 0) 0 0 0 base)).isSome = true :=
  ⟨by constructor <;> first | decide | (constructor <;> decide), by decide, by decide⟩
theorem witness_StoredWordReachesDataMemory :
    Invariant (executing (.sw 7 63 0) 0 9 0 base) ∧ isSw (executing (.sw 7 63 0) 0 9 0 base).de.instr = true ∧
    (threeCycles (executing (.sw 7 63 0) 0 9 0 base)).isSome = true :=
  ⟨by constructor <;> first | decide | (constructor <;> decide), by decide, by decide⟩
theorem witness_SquashedSlotsDoNothing :
    exRedirect busy ≠ none ∧ ((valueOf (step busy)).bind fun t => valueOf (step t)).isSome = true := by decide
theorem witness_HaltReachesWriteback :
    isHalt (executing (.halt 1) 0 0 0 base).de.instr = true ∧
    ((valueOf (step (executing (.halt 1) 0 0 0 base))).bind fun t => valueOf (step t)).isSome = true := by decide
theorem witness_CountersGrowByBoundedSteps : Invariant busy ∧ (valueOf (step busy)).isSome = true :=
  ⟨busy_invariant, by decide⟩
theorem witness_MispredictionsNeverExceedBranches :
    busy.mispredicts + countedInFlight busy ≤ busy.branches ∧ (valueOf (step busy)).isSome = true ∧
    countedInFlight (branching 0 3 8) = 1 := by decide
theorem witness_ReferenceInstructionEffects :
    ((7 : RegNum).toNat < 8) ∧ wordIndex (readReg base.x 0 + zext32 63) < 16 := by decide

/-- The shortest program whose reference run does something: an `add`, then a `halt`. -/
def tiny : Launch := { im := [(0, 0x00430820), (1, 0xFC000000)], x := regs [0, 0, 5, 7] }

/-- Program T3c of 95_test_vectors.md, which breaks the base-register rule. -/
def t3c : Launch :=
  { im := [(0, 0x8C010000), (1, 0xAC230000), (2, 0xFC000000)], dm := [(0, 8), (2, 77)],
    x := regs [0, 0, 0, 5, 0, 0, 0, 0] }

/-- T3c: instruction-level execution gives DM[0] = 8, DM[2] = 5, though the rule is broken. -/
theorem test_reference_t3c :
    ((refProgram 3 t3c).bind valueOf).map (·.dm) = some [(0, 8), (2, 5)] ∧ t3c.keepsBaseRule 3 = false := by decide
/-- 2.5, column ref: the `lw $4,0($1)` right behind its producer reads 222; a run cut short answers none. -/
theorem test_reference_lw_behind_add :
    ((refRun [(0, 0x00430820), (1, 0x8C240000), (2, 0xFC000000)] 3
      ⟨0, regs [0, 0, 4, 4, 0, 1, 0, 0], [(0, 111), (2, 222), (4, 9)]⟩).bind valueOf).map (fun a => a.x[4]) = some 222 ∧
    (refRun [(0, 0x00430820), (1, 0x8C240000), (2, 0xFC000000)] 2
      ⟨0, regs [0, 0, 4, 4, 0, 1, 0, 0], [(0, 111), (2, 222), (4, 9)]⟩).isNone = true := by decide

/-- One for each way the reference run stops: a `halt`, a fetch, a data access out of range. -/
theorem witness_ReferenceRunStopsAtHaltOrOutOfRange :
    wellFormedIM t3c.im = true ∧ (refRun t3c.im 3 (Arch.launch t3c)).isSome = true ∧
    wellFormedIM [] = true ∧ (refRun [] 1 ⟨64, regs [], []⟩).bind faultOf = some (.fetchOutOfRange 64) ∧
    wellFormedIM [(0, 0x8C010040)] = true ∧
    (refRun [(0, 0x8C010040)] 1 ⟨0, regs [], []⟩).bind faultOf = some (.dataAddressOutOfRange 64) := by decide

theorem witness_PipelineAgreesWithReference :
    tiny.ok = true ∧
    ((refProgram 2 tiny).bind valueOf).map (fun a => a.x[1]) = some 12 ∧ tiny.keepsBaseRule 2 = true ∧
    (valueOf (Host.Core.run Sys2Proof.core 5 (State.launch tiny))).map halted = some true := by decide

end Sys2Proof.Tests
end

section
/-! The class predicates of a word (00_scope.md R12). The seven of them are read as one list of flags: a word whose
opcode is not 0 is told by its opcode alone, a non-zero word of opcode 0 by its funct. -/

namespace Sys2Proof

/-- The seven class predicates of a word that exclude each other when it is well-formed. -/
def classFlags (w : Word) : List Bool :=
  [isNoop w, isAdd w, isSub w, isLw w, isSw w, isBne w, isHalt w]

theorem ne_zero_of_functOf_ne_zero {w : Word} (h : functOf w ≠ 0) : w ≠ 0 := by
  rintro rfl
  exact h (by decide)

theorem classFlags_of_opcode_ne_zero {w : Word} (h : opcode w ≠ 0) :
    classFlags w = [false, false, false, opcode w == 35, opcode w == 43, opcode w == 4, opcode w == 63] := by
  have hw : w ≠ 0 := ne_zero_of_opcode_ne_zero h
  have hn : isNoop w = false := by simpa [isNoop] using hw
  have ha : isAlu w = false := Bool.eq_false_iff.2 fun ha => h ((isAlu_iff w).1 ha).1
  simp [classFlags, hn, isAdd, isSub, ha, isLw, isSw, isBne, isHalt]

theorem classFlags_of_opcode_zero {w : Word} (h : opcode w = 0) (hw : w ≠ 0) :
    classFlags w = [false, functOf w == 32, functOf w == 34, false, false, false, false] := by
  have hn : isNoop w = false := by simpa [isNoop] using hw
  have ha : isAdd w = (functOf w == 32) := Bool.eq_iff_iff.2 (by simp [isAdd_iff, h])
  have hs : isSub w = (functOf w == 34) := Bool.eq_iff_iff.2 (by simp [isSub_iff, h])
  simp [classFlags, hn, ha, hs, isLw, isSw, isBne, isHalt, h]

/-- Exactly one class holds of a word that decodes, by the instruction it decodes to. -/
theorem count_classFlags_of_decodesTo {w : Word} {i : Instr} (h : DecodesTo w i) : (classFlags w).count true = 1 := by
  cases h with
  | noop hw =>
    subst hw
    decide
  | add ho _ hf _ =>
    have hw : w ≠ 0 := ne_zero_of_functOf_ne_zero (by rw [hf]; decide)
    rw [classFlags_of_opcode_zero ho hw, hf]
    decide
  | sub ho _ hf _ =>
    have hw : w ≠ 0 := ne_zero_of_functOf_ne_zero (by rw [hf]; decide)
    rw [classFlags_of_opcode_zero ho hw, hf]
    decide
  | lw ho _ | sw ho _ | bne ho _ | halt ho =>
    rw [classFlags_of_opcode_ne_zero (by rw [ho]; decide), ho]
    decide

/-- Settles O5: the defining conditions are those of Laws/Decode, and the count is by the inversion of the decoder. -/
theorem classPredicatesPartitionWellFormedWords : Obligations.ClassPredicatesPartitionWellFormedWords := by
  intro w
  have hAdd : isAdd w = true ↔ isAlu w = true ∧ functOf w = 32 := by simp [isAdd]
  have hSub : isSub w = true ↔ isAlu w = true ∧ functOf w = 34 := by simp [isSub]
  refine ⟨isNoop_iff w, isAlu_iff w, hAdd, hSub, isLw_iff w, isSw_iff w, isBne_iff w, isHalt_iff w, fun hwf => ?_⟩
  obtain ⟨i, hi⟩ := (wellFormedWord_iff w).1 hwf
  exact count_classFlags_of_decodesTo (decode_cases hi)

end Sys2Proof
end

section
/-! The well-formed words (30_encoding.md R100). What the decoder answers is the one well-formed instruction whose
encoding the word is: the fields of an encoded instruction are its operands, and a word is put together again from its
fields. -/

namespace Sys2Proof

/-! ## A word is made of its fields (R91 to R94) -/

theorem encodeR_fields {w : Word} (ho : opcode w = 0) (hs : shamtOf w = 0) :
    encodeR (rsOf w) (rtOf w) (rdOf w) (functOf w) = w := by
  have hw : (opcode w ++ rsOf w ++ rtOf w ++ rdOf w ++ shamtOf w ++ functOf w :
      BitVec (6 + 5 + 5 + 5 + 5 + 6)) = w := by
    apply BitVec.eq_of_getLsbD_eq
    intro i hi
    simp only [BitVec.getLsbD_append, opcode, rsOf, rtOf, rdOf, shamtOf, functOf, BitVec.getLsbD_extractLsb']
    grind
  rwa [ho, hs] at hw

theorem encodeI_fields (w : Word) : encodeI (opcode w) (rsOf w) (rtOf w) (immOf w) = w := by
  apply BitVec.eq_of_getLsbD_eq
  intro i hi
  simp only [getLsbD_encodeI, opcode, rsOf, rtOf, immOf, BitVec.getLsbD_extractLsb']
  grind

theorem encode_halt_fields {w : Word} (ho : opcode w = 63) : encode (.halt (unusedOf w)) = w := by
  have hw : (opcode w ++ unusedOf w : BitVec (6 + 26)) = w := by
    apply BitVec.eq_of_getLsbD_eq
    intro i hi
    simp only [BitVec.getLsbD_append, opcode, unusedOf, BitVec.getLsbD_extractLsb']
    grind
  rwa [ho] at hw

/-! ## The decoder's answers -/

theorem checkRegisters_of_wf {i : Instr} (h : i.wf = true) : checkRegisters i = .ok i :=
  checkRegisters_eq_ok.2 ⟨h, rfl⟩

/-- The converse of `decode_cases`. -/
theorem decode_of_decodesTo {w : Word} {i : Instr} (h : DecodesTo w i) : decode w = .ok i := by
  cases h with
  | noop hw => simp [decode, hw]
  | add ho hs hf hwf =>
    have hw : w ≠ 0 := ne_zero_of_functOf_ne_zero (by rw [hf]; decide)
    rw [decode, if_neg hw, if_pos ho, decodeR, if_pos hf, if_pos hs, checkRegisters_of_wf hwf]
  | sub ho hs hf hwf =>
    have hw : w ≠ 0 := ne_zero_of_functOf_ne_zero (by rw [hf]; decide)
    rw [decode, if_neg hw, if_pos ho, decodeR, if_neg (by rw [hf]; decide), if_pos hf, if_pos hs,
      checkRegisters_of_wf hwf]
  | lw ho hwf | sw ho hwf | bne ho hwf =>
    have hw : w ≠ 0 := ne_zero_of_opcode_ne_zero (by rw [ho]; decide)
    rw [decode, if_neg hw]
    simp [ho, checkRegisters_of_wf hwf]
  | halt ho =>
    have hw : w ≠ 0 := ne_zero_of_opcode_ne_zero (by rw [ho]; decide)
    rw [decode, if_neg hw]
    simp [ho]

theorem wellFormedWord_iff_decodesTo (w : Word) : wellFormedWord w = true ↔ ∃ i, DecodesTo w i :=
  (wellFormedWord_iff w).trans (exists_congr fun _ => ⟨decode_cases, decode_of_decodesTo⟩)

theorem wf_of_decodesTo {w : Word} {i : Instr} (h : DecodesTo w i) : i.wf = true := by
  cases h with
  | noop _ | halt _ => rfl
  | add _ _ _ hwf | sub _ _ _ hwf | lw _ hwf | sw _ hwf | bne _ hwf => exact hwf

theorem encode_of_decodesTo {w : Word} {i : Instr} (h : DecodesTo w i) : encode i = w := by
  cases h with
  | noop hw => exact hw.symm
  | add ho hs hf _ | sub ho hs hf _ => rw [encode, ← hf, encodeR_fields ho hs]
  | lw ho _ | sw ho _ | bne ho _ => rw [encode, ← ho, encodeI_fields]
  | halt ho => exact encode_halt_fields ho

theorem decodesTo_encode {i : Instr} (h : i.wf = true) : DecodesTo (encode i) i := by
  cases i with
  | noop => exact .noop rfl
  | add rd rs rt => simpa [encode, h] using DecodesTo.add (w := encodeR rs rt rd 32)
  | sub rd rs rt => simpa [encode, h] using DecodesTo.sub (w := encodeR rs rt rd 34)
  | lw rt imm rs => simpa [encode, h] using DecodesTo.lw (w := encodeI 35 rs rt imm)
  | sw rt imm rs => simpa [encode, h] using DecodesTo.sw (w := encodeI 43 rs rt imm)
  | bne rs rt imm => simpa [encode, h] using DecodesTo.bne (w := encodeI 4 rs rt imm)
  | halt u => simpa using DecodesTo.halt (w := encode (.halt u))

theorem decodesTo_iff_encode {w : Word} {i : Instr} : DecodesTo w i ↔ i.wf = true ∧ encode i = w := by
  constructor
  · exact fun h => ⟨wf_of_decodesTo h, encode_of_decodesTo h⟩
  · rintro ⟨hwf, rfl⟩
    exact decodesTo_encode hwf

/-! ## The four alternatives of R100 -/

/-- R100: the words the decoder accepts, by their fields. -/
theorem exists_decodesTo_iff_fields (w : Word) : (∃ i, DecodesTo w i) ↔
    w = 0 ∨ opcode w = 63 ∨
    (opcode w = 0 ∧ shamtOf w = 0 ∧ (functOf w = 32 ∨ functOf w = 34) ∧
      (rsOf w).toNat < 8 ∧ (rtOf w).toNat < 8 ∧ (rdOf w).toNat < 8) ∨
    ((opcode w = 35 ∨ opcode w = 43 ∨ opcode w = 4) ∧ (rsOf w).toNat < 8 ∧ (rtOf w).toNat < 8) := by
  constructor
  · rintro ⟨i, h⟩
    cases h with
    | noop hw => exact .inl hw
    | halt ho => exact .inr (.inl ho)
    | add ho hs hf hwf | sub ho hs hf hwf =>
      simp only [Instr.wf, Bool.and_eq_true, named_iff] at hwf
      obtain ⟨⟨hd, hrs⟩, ht⟩ := hwf
      simp [ho, hs, hf, hrs, ht, hd]
    | lw ho hwf | sw ho hwf | bne ho hwf =>
      simp only [Instr.wf, Bool.and_eq_true, named_iff] at hwf
      simp [ho, hwf]
  · rintro (hw | ho | ⟨ho, hs, hf | hf, hr⟩ | ⟨ho | ho | ho, hr⟩)
    · exact ⟨_, .noop hw⟩
    · exact ⟨_, .halt ho⟩
    · exact ⟨_, .add ho hs hf (by simp [Instr.wf, named_iff, hr])⟩
    · exact ⟨_, .sub ho hs hf (by simp [Instr.wf, named_iff, hr])⟩
    · exact ⟨_, .lw ho (by simp [Instr.wf, named_iff, hr])⟩
    · exact ⟨_, .sw ho (by simp [Instr.wf, named_iff, hr])⟩
    · exact ⟨_, .bne ho (by simp [Instr.wf, named_iff, hr])⟩

/-- Settles O3: both descriptions are read off the decoder's answers, by their fields and by their encodings. -/
theorem decodableWordsAreTheWellFormedWords : Obligations.DecodableWordsAreTheWellFormedWords := by
  intro w
  exact ⟨(wellFormedWord_iff_decodesTo w).trans (exists_decodesTo_iff_fields w),
    (wellFormedWord_iff_decodesTo w).trans (exists_congr fun _ => decodesTo_iff_encode)⟩

end Sys2Proof
end

section
/-! Writeback and Memory in every cycle (41_pipeline_stages.md R154 to R157): what they leave in the register file, in
MW and in data memory, and in which states they complete. -/

namespace Sys2Proof.Machine

/-! ## Writeback -/

/-- The three cases of Writeback as one rule about reads. -/
theorem registersWrittenBack_of_writebackStage {s t : State} (h : writebackStage s = .next t.x) :
    RegistersWrittenBack s t := by
  intro r _
  rcases writebackStage_eq_next.1 h with ⟨hl, hn, hx⟩ | ⟨hl, ha, hn, hx⟩ | ⟨hl, ha, hx⟩
  · simp [hx, readReg_set s.x hn, hl, isAlu_eq_false_of_isLw hl, eq_comm]
  · simp [hx, readReg_set s.x hn, hl, ha, eq_comm]
  · simp [hx, hl, ha]

theorem writebackStage_eq_self {s : State} {x : Vector Word 8} (h : writebackStage s = .next x)
    (hl : isLw s.mw.instr = false) (ha : isAlu s.mw.instr = false) : x = s.x := by
  simpa [writebackStage_eq_next, hl, ha] using h

theorem exists_writebackStage_of_named {s : State} (h : writebackNamed s = true) :
    ∃ x, writebackStage s = .next x := by
  simp only [writebackNamed, writesRegister, Bool.or_eq_true, Bool.not_eq_true', Bool.or_eq_false_iff,
    decide_eq_true_eq] at h
  cases hl : isLw s.mw.instr with
  | true =>
    have hn : s.mw.dest.toNat < 8 := by simpa [hl] using h
    exact ⟨_, writebackStage_eq_next.2 (.inl ⟨hl, hn, rfl⟩)⟩
  | false =>
    cases ha : isAlu s.mw.instr with
    | true =>
      have hn : s.mw.dest.toNat < 8 := by simpa [ha] using h
      exact ⟨_, writebackStage_eq_next.2 (.inr (.inl ⟨hl, ha, hn, rfl⟩))⟩
    | false => exact ⟨_, writebackStage_eq_next.2 (.inr (.inr ⟨hl, ha, rfl⟩))⟩

/-- The Decode mux gives what Writeback of the same cycle leaves in the file (R157): the two sources of the mux are the
two writers, which exclude each other. -/
theorem fwdID_eq_readReg_of_writtenBack {s t : State} (h : RegistersWrittenBack s t) {r : RegNum} (hr : r.toNat < 8) :
    fwdID s r (readReg s.x r) = readReg t.x r := by
  rw [h r hr, fwdID]
  cases hl : isLw s.mw.instr with
  | true => simp [isAlu_eq_false_of_isLw hl]
  | false => simp

/-- Settles O17: the inversion of the step gives its Writeback, whose three cases say what the file holds. -/
theorem writebackWritesOnlyTheDestination : Obligations.WritebackWritesOnlyTheDestination := by
  intro s t h
  obtain ⟨i, x, m, f, -, -, -, hx, -, -, rfl⟩ := step_cases h
  have hw : RegistersWrittenBack s (assemble s (exOut i s) x m f) := registersWrittenBack_of_writebackStage hx
  exact ⟨hw, writebackStage_eq_self hx, fun _ hr => fwdID_eq_readReg_of_writtenBack hw hr⟩

/-! ## Memory -/

theorem ne_zero_of_isLw {w : Word} (h : isLw w = true) : w ≠ 0 :=
  ne_zero_of_opcode_ne_zero (by rw [(isLw_iff w).1 h]; decide)

theorem ne_zero_of_isSw {w : Word} (h : isSw w = true) : w ≠ 0 :=
  ne_zero_of_opcode_ne_zero (by rw [(isSw_iff w).1 h]; decide)

theorem isLw_eq_false_of_isSw {w : Word} (h : isSw w = true) : isLw w = false := by
  rw [isSw_iff] at h
  simp [isLw, h]

theorem memoryStage_mw {s : State} {m : MemOut} (h : memoryStage s = .next m) : m.mw = mwNext s := by
  rcases memoryStage_eq_next.1 h with ⟨h0, rfl⟩ | ⟨hl, -, rfl⟩ | ⟨hs, -, rfl⟩ | ⟨h0, hl, hs, rfl⟩
  · simp [mwNext, h0]
  · rw [mwNext, if_neg (ne_zero_of_isLw hl)]
    simp [hl, isSw_eq_false_of_isLw hl]
  · rw [mwNext, if_neg (ne_zero_of_isSw hs)]
    simp [hs, isLw_eq_false_of_isSw hs]
  · rw [mwNext, if_neg h0]
    simp [hl, hs]

theorem memoryStage_dm_eq_self {s : State} {m : MemOut} (h : memoryStage s = .next m)
    (hs : isSw s.em.instr = false) : m.dm = s.dm := by
  rcases memoryStage_eq_next.1 h with ⟨-, rfl⟩ | ⟨-, -, rfl⟩ | ⟨hs', -, -⟩ | ⟨-, -, -, rfl⟩
  · rfl
  · rfl
  · simp [hs] at hs'
  · rfl

theorem memoryStage_dm_eq_write {s : State} {m : MemOut} (h : memoryStage s = .next m)
    (hs : isSw s.em.instr = true) : m.dm = Memory.write s.dm (wordIndex s.em.aluResult) s.em.storeData := by
  rcases memoryStage_eq_next.1 h with ⟨h0, -⟩ | ⟨hl, -, -⟩ | ⟨-, -, rfl⟩ | ⟨-, -, hs', -⟩
  · exact absurd h0 (ne_zero_of_isSw hs)
  · simp [isLw_eq_false_of_isSw hs] at hl
  · rfl
  · simp [hs] at hs'

theorem dataMemoryStored_of_memoryStage {s t : State} {m : MemOut} (h : memoryStage s = .next m) (ht : t.dm = m.dm) :
    DataMemoryStored s t := by
  intro a
  rw [ht]
  cases hs : isSw s.em.instr with
  | true =>
    rw [memoryStage_dm_eq_write h hs, Memory.read_write]
    simp [eq_comm]
  | false =>
    rw [memoryStage_dm_eq_self h hs]
    simp

theorem exists_memoryStage_of_inRange {s : State} (h : dataInRange s = true) : ∃ m, memoryStage s = .next m := by
  simp only [dataInRange, Bool.or_eq_true, Bool.not_eq_true', Bool.or_eq_false_iff, decide_eq_true_eq] at h
  by_cases h0 : s.em.instr = 0
  · exact ⟨_, memoryStage_eq_next.2 (.inl ⟨h0, rfl⟩)⟩
  rcases h with ⟨hl, hs⟩ | hr
  · exact ⟨_, memoryStage_eq_next.2 (.inr (.inr (.inr ⟨h0, hl, hs, rfl⟩)))⟩
  cases hl : isLw s.em.instr with
  | true => exact ⟨_, memoryStage_eq_next.2 (.inr (.inl ⟨hl, hr, rfl⟩))⟩
  | false =>
    cases hs : isSw s.em.instr with
    | true => exact ⟨_, memoryStage_eq_next.2 (.inr (.inr (.inl ⟨hs, hr, rfl⟩)))⟩
    | false => exact ⟨_, memoryStage_eq_next.2 (.inr (.inr (.inr ⟨h0, hl, hs, rfl⟩)))⟩

/-- Behind Execute every completed cycle does the same, whatever the instruction in Execute gives it. -/
theorem backAdvances_assemble {s : State} {x : Vector Word 8} {m : MemOut} (hx : writebackStage s = .next x)
    (hm : memoryStage s = .next m) (ex : ExOut) (f : Front) : BackAdvances s (assemble s ex x m f) where
  registers := registersWrittenBack_of_writebackStage hx
  dataMemory := dataMemoryStored_of_memoryStage hm rfl
  mw := memoryStage_mw hm
  im := rfl
  cycles := rfl

end Sys2Proof.Machine
end

section
/-! The cycle of an instruction that changes nothing but EM' in Execute (41_pipeline_stages.md R151 to R153, R158): it
completes and is a `PlainCycle`, so that `add`, `sub`, `lw` and `sw` differ only in the EM' they form. -/

namespace Sys2Proof.Machine

/-! ## The front without an Execute redirect -/

theorem exists_commit_none_of_inRange {s : State} (h : fetchInRange s = true) : ∃ f, commit s none = .next f := by
  simp only [fetchInRange, Bool.or_eq_true, decide_eq_true_eq] at h
  cases hs : stall s with
  | true => exact ⟨_, commit_eq_next.2 (.inr (.inl ⟨rfl, hs, rfl⟩))⟩
  | false =>
    cases hd : idRedirect s with
    | true => exact ⟨_, commit_eq_next.2 (.inr (.inr (.inl ⟨rfl, hs, hd, rfl⟩)))⟩
    | false =>
      have hp : wordIndex s.pc < 16 := by simpa [hs, hd] using h
      exact ⟨_, commit_eq_next.2 (.inr (.inr (.inr ⟨rfl, hs, hd, hp, rfl⟩)))⟩

/-- The commit's three cases without an Execute redirect, as the front of the next state and the events of Decode. -/
theorem commit_none_advances {s : State} {f : Front} (h : commit s none = .next f) (ex : ExOut) (x : Vector Word 8)
    (m : MemOut) : FrontAdvances s (assemble s ex x m f) ∧
      f.events = ⟨decodeStalls s, decodeBranches s, 0⟩ := by
  rcases commit_eq_next.1 h with ⟨_, hr, -⟩ | ⟨-, hs, rfl⟩ | ⟨-, hs, hd, rfl⟩ | ⟨-, hs, hd, -, rfl⟩
  · cases hr
  · have hd : idRedirect s = false := by simp [idRedirect, hs]
    simp [FrontAdvances, decodeStalls, decodeBranches, hs, hd]
  · simp [FrontAdvances, decodeStalls, decodeBranches, hs, hd]
  · simp [FrontAdvances, decodeStalls, decodeBranches, Events.none, hs, hd]

/-! ## The plain cycle -/

theorem plainCycle_assemble {s : State} {x : Vector Word 8} {m : MemOut} {f : Front}
    (hx : writebackStage s = .next x) (hm : memoryStage s = .next m) (hf : commit s none = .next f) (em : EM) :
    PlainCycle s (assemble s (ExOut.plain s em) x m f) := by
  obtain ⟨hfront, hev⟩ := commit_none_advances hf (ExOut.plain s em) x m
  exact { back := backAdvances_assemble hx hm _ f, front := hfront, ctr := rfl,
          stalls := by simp [hev], branches := by simp [hev], mispredicts := by simp [hev] }

/-- R151 to R153: with Writeback, Memory and Fetch defined, the cycle completes with the given EM', and is plain. -/
theorem exists_plainCycle {s : State} (hw : writebackNamed s = true) (hd : dataInRange s = true)
    (hf : fetchInRange s = true) (em : EM) :
    ∃ t, cycle s (ExOut.plain s em) = .next t ∧ PlainCycle s t ∧ t.em = em := by
  obtain ⟨x, hx⟩ := exists_writebackStage_of_named hw
  obtain ⟨m, hm⟩ := exists_memoryStage_of_inRange hd
  obtain ⟨f, hf⟩ := exists_commit_none_of_inRange hf
  exact ⟨_, cycle_eq_next.2 ⟨x, m, f, hx, hm, hf, rfl⟩, plainCycle_assemble hx hm hf em, rfl⟩

/-! ## The fields of DE by the format of its word (R148) -/

@[simp] theorem destOf_encodeR (rs rt rd : RegNum) (funct : BitVec 6) : destOf (encodeR rs rt rd funct) = rd := by
  simp [destOf]

theorem destOf_encodeI {op : BitVec 6} (rs rt : RegNum) (imm : Imm16) (h : op ≠ 0) :
    destOf (encodeI op rs rt imm) = rt := by
  rw [destOf, opcode_encodeI, if_neg h, rtOf_encodeI]

theorem DE.Consistent.fields_of_encodeR {de : DE} (h : de.Consistent) {rs rt rd : RegNum} {funct : BitVec 6}
    (hw : de.instr = encodeR rs rt rd funct) : de.rs = rs ∧ de.rt = rt ∧ de.dest = rd := by
  simp [h.rs, h.rt, h.dest, hw]

theorem DE.Consistent.fields_of_encodeI {de : DE} (h : de.Consistent) {op : BitVec 6} {rs rt : RegNum} {imm : Imm16}
    (hw : de.instr = encodeI op rs rt imm) (ho : op ≠ 0) :
    de.rt = rt ∧ de.imm = zext32 imm ∧ de.dest = rt := by
  simp [h.rt, h.imm, h.dest, hw, destOf_encodeI rs rt imm ho]

/-! ## EM' of the four instructions -/

section
variable {s : State} {rd rs rt : RegNum} {imm : Imm16}

/-- EM' of an R-format instruction, whose operands Execute forwards, with the result `op` gives on them. -/
theorem aluOut_of_encodeR {funct : BitVec 6} (hw : s.de.instr = encodeR rs rt rd funct) (hc : s.de.Consistent)
    (op : Word → Word → Word) : aluOut s (op (operandA s) (operandB s)) =
      ⟨encodeR rs rt rd funct, op (fwdEX s rs s.de.valA) (fwdEX s rt s.de.valB), 0, rd⟩ := by
  obtain ⟨hrs, hrt, hrd⟩ := hc.fields_of_encodeR hw
  rw [aluOut, operandA, operandB, hw, hrs, hrt, hrd]

theorem exOut_add (h : s.de.Holds (.add rd rs rt)) : exOut (.add rd rs rt) s = ExOut.plain s
    ⟨encode (.add rd rs rt), fwdEX s rs s.de.valA + fwdEX s rt s.de.valB, 0, rd⟩ :=
  congrArg (ExOut.plain s) (aluOut_of_encodeR h.1 h.2 (· + ·))

theorem exOut_sub (h : s.de.Holds (.sub rd rs rt)) : exOut (.sub rd rs rt) s = ExOut.plain s
    ⟨encode (.sub rd rs rt), fwdEX s rs s.de.valA - fwdEX s rt s.de.valB, 0, rd⟩ :=
  congrArg (ExOut.plain s) (aluOut_of_encodeR h.1 h.2 (· - ·))

theorem exOut_lw (h : s.de.Holds (.lw rt imm rs)) : exOut (.lw rt imm rs) s = ExOut.plain s
    ⟨encode (.lw rt imm rs), zext32 imm + s.de.valA, 0, rt⟩ := by
  obtain ⟨hw, hc⟩ := h
  obtain ⟨-, himm, hdest⟩ := hc.fields_of_encodeI hw (by decide)
  rw [exOut, effectiveAddress, hw, himm, hdest]

theorem exOut_sw (h : s.de.Holds (.sw rt imm rs)) : exOut (.sw rt imm rs) s = ExOut.plain s
    ⟨encode (.sw rt imm rs), zext32 imm + s.de.valA, fwdEX s rt s.de.valB, 0⟩ := by
  obtain ⟨hw, hc⟩ := h
  obtain ⟨hrt, himm, -⟩ := hc.fields_of_encodeI hw (by decide)
  rw [exOut, effectiveAddress, operandB, hw, hrt, himm]

end

/-- An instruction whose Execute stage is plain completes, with the EM' it forms. -/
theorem exec_completes_of_plain {i : Instr} {s : State} {em : EM} (h : exOut i s = ExOut.plain s em)
    (hw : writebackNamed s = true) (hd : dataInRange s = true) (hf : fetchInRange s = true) :
    ∃ t, exec i s = .next t ∧ PlainCycle s t ∧ t.em = em := by
  rw [exec_eq_cycle, h]
  exact exists_plainCycle hw hd hf em

/-- Settles O24: both are plain in Execute, with the EM' that R151 gives. -/
theorem addAndSubExecute : Obligations.AddAndSubExecute := fun _ _ _ _ hw hd hf =>
  ⟨fun h => exec_completes_of_plain (exOut_add h) hw hd hf, fun h => exec_completes_of_plain (exOut_sub h) hw hd hf⟩

/-- Settles O25: both are plain in Execute, with the EM' that R152 gives. -/
theorem loadAndStoreExecute : Obligations.LoadAndStoreExecute := fun _ _ _ _ hw hd hf =>
  ⟨fun h => exec_completes_of_plain (exOut_lw h) hw hd hf, fun h => exec_completes_of_plain (exOut_sw h) hw hd hf⟩

end Sys2Proof.Machine
end

section
/-! The branch predictor (43_branch_prediction.md R202, R207, R208): the prediction and the update of the counter as
arithmetic on its value, and a step told apart by whether a `bne` stands in Execute. -/

namespace Sys2Proof.Machine

/-! ## The prediction -/

theorem predT_iff (c : PredCounter) : predT c = true ↔ c = 3 := by
  simp [predT]

theorem eq_three_iff_le_toNat (c : PredCounter) : c = 3 ↔ 3 ≤ c.toNat := by
  bv_omega

/-- Settles O32: 3 is the greatest value of a counter, and the one that predicts taken. -/
theorem predictTakenOnlyAtThree : Obligations.PredictTakenOnlyAtThree := by
  intro c
  have hle : predT c = true ↔ 3 ≤ c.toNat := (predT_iff c).trans (eq_three_iff_le_toNat c)
  refine ⟨predT_iff c, hle, hle, fun hc => ?_⟩
  rw [Bool.eq_false_iff, Ne, predT_iff]
  rintro rfl
  exact absurd hc (by decide)

/-! ## The update of the counter -/

theorem toNat_ctrUp (c : PredCounter) : (ctrUp c).toNat = min (c.toNat + 1) 3 := by
  unfold ctrUp
  split
  · rename_i h
    simp [h]
  · bv_omega

theorem toNat_ctrDown (c : PredCounter) : (ctrDown c).toNat = c.toNat - 1 := by
  unfold ctrDown
  split
  · rename_i h
    simp [h]
  · bv_omega

/-- R208: both directions saturate. -/
theorem toNat_ctrUpdate (b : Bool) (c : PredCounter) :
    (ctrUpdate b c).toNat = if b then min (c.toNat + 1) 3 else c.toNat - 1 := by
  cases b with
  | true => exact toNat_ctrUp c
  | false => exact toNat_ctrDown c

/-! ## The direction of the `bne` in Execute -/

theorem branchTaken_iff_sub (a b : Word) : branchTaken a b = true ↔ a - b ≠ 0 := by
  simp [branchTaken]

theorem branchTaken_iff_ne (a b : Word) : branchTaken a b = true ↔ a ≠ b :=
  (branchTaken_iff_sub a b).trans sub_ne_zero

/-! ## Execute with and without a `bne` -/

/-- R153, R207: a `bne` resolves in Execute, and every other instruction is plain there. -/
theorem exOut_cases {s : State} {i : Instr} (h : DecodesTo s.de.instr i) :
    (isBne s.de.instr = true ∧ exOut i s = bneOut s) ∨
    (isBne s.de.instr = false ∧ ∃ em, exOut i s = ExOut.plain s em) := by
  cases h with
  | bne ho _ => exact .inl ⟨(isBne_iff _).2 ho, rfl⟩
  | noop h0 => exact .inr ⟨by simp [h0], _, rfl⟩
  | add ho _ _ _ | sub ho _ _ _ | lw ho _ | sw ho _ | halt ho => exact .inr ⟨by simp [isBne, ho], _, rfl⟩

theorem exRedirect_eq_none_of_not_isBne {s : State} (h : isBne s.de.instr = false) : exRedirect s = none := by
  simp [exRedirect, h]

/-- A step with a `bne` in Execute forms the EM' and the CTR' of the resolution. -/
theorem step_resolves_bne {s t : State} (h : step s = .next t) (hb : isBne s.de.instr = true) :
    t.em.aluResult = operandA s - operandB s ∧ t.ctr = ctrUpdate (taken s) s.ctr := by
  obtain ⟨i, x, m, f, -, -, hi, -, -, -, rfl⟩ := step_cases h
  rcases exOut_cases hi with ⟨-, he⟩ | ⟨hn, -⟩
  · simp [he]
  · simp [hb] at hn

/-- A step with another instruction in Execute is a plain cycle. -/
theorem step_plainCycle_of_not_isBne {s t : State} (h : step s = .next t) (hb : isBne s.de.instr = false) :
    PlainCycle s t := by
  obtain ⟨i, x, m, f, -, -, hi, hx, hm, hf, rfl⟩ := step_cases h
  rw [exRedirect_eq_none_of_not_isBne hb] at hf
  rcases exOut_cases hi with ⟨hn, -⟩ | ⟨-, em, he⟩
  · simp [hb] at hn
  · rw [he]
    exact plainCycle_assemble hx hm hf em

/-- Settles O31: the step is told apart by its Execute stage, which resolves a `bne` and is plain otherwise. -/
theorem resolutionTrainsThePredictor : Obligations.ResolutionTrainsThePredictor := by
  intro s t h
  constructor
  · intro hb
    obtain ⟨halu, hctr⟩ := step_resolves_bne h hb
    exact ⟨halu, branchTaken_iff_sub _ _, branchTaken_iff_ne _ _, predT_iff _, by rw [hctr, toNat_ctrUpdate]⟩
  · intro hb
    have hp : PlainCycle s t := step_plainCycle_of_not_isBne h hb
    exact ⟨exRedirect_eq_none_of_not_isBne hb, hp.front, hp.ctr, hp.branches, hp.mispredicts⟩

end Sys2Proof.Machine
end

section
/-! The decoder and the encoder as inverses, and the opcode table (30_encoding.md sections 2 and 4). A row of the table is
read field by field: a strict mask is all ones on the fields that fix the mnemonic, and 11000 on each register field,
which leaves the registers 0 to 7. -/

namespace Sys2Proof

/-! ## Inverses -/

/-- Settles O1: the encoding of a well-formed instruction is one of the decoder's seven cases. -/
theorem decodeOfEncodeIsIdentity : Obligations.DecodeOfEncodeIsIdentity := fun _ h =>
  decode_of_decodesTo (decodesTo_encode h)

/-- Settles O2: each of the decoder's seven cases is a well-formed instruction whose encoding is the word. -/
theorem encodeOfDecodeIsIdentity : Obligations.EncodeOfDecodeIsIdentity := fun _ _ h =>
  ⟨encode_of_decodesTo (decode_cases h), wf_of_decodesTo (decode_cases h)⟩

/-- Settles O6: each word is evaluated. -/
theorem specWordsDecode : Obligations.SpecWordsDecode := by
  unfold Obligations.SpecWordsDecode
  decide

/-! ## A word under a mask -/

section
variable {w mask value : Word}

/-- A field on which the mask is all ones is the field of the match value. -/
theorem extractLsb'_eq_of_and_eq (h : w &&& mask = value) (start len : Nat)
    (hm : mask.extractLsb' start len = BitVec.allOnes len) :
    w.extractLsb' start len = value.extractLsb' start len := by
  rw [← h, BitVec.extractLsb'_and, hm, BitVec.and_allOnes]

/-- A register field on which the mask is 11000 and the match value 0 names a register. -/
theorem toNat_lt_eight_of_and_eq (h : w &&& mask = value) (start : Nat)
    (hm : mask.extractLsb' start 5 = 0b11000#5) (hv : value.extractLsb' start 5 = 0#5) :
    (w.extractLsb' start 5).toNat < 8 := by
  have hs : ∀ n : BitVec 5, n &&& 0b11000#5 = 0#5 → n.toNat < 8 := by decide
  apply hs
  rw [← hm, ← BitVec.extractLsb'_and, h, hv]

end

/-! ## The rows -/

theorem matchesStrictly_iff (r : Row) (w : Word) : r.matchesStrictly w = true ↔ w &&& r.strictMask = r.value := by
  simp [Row.matchesStrictly]

/-- What the strict mask of the two R-format rows asks of a word. -/
theorem fields_of_and_rMask {w : Word} {funct : BitVec 6} (h : w &&& 0xFF18C7FF = encodeR 0 0 0 funct) :
    opcode w = 0 ∧ shamtOf w = 0 ∧ functOf w = funct ∧
      (rsOf w).toNat < 8 ∧ (rtOf w).toNat < 8 ∧ (rdOf w).toNat < 8 := by
  refine ⟨?_, ?_, ?_, ?_, ?_, ?_⟩
  · exact (extractLsb'_eq_of_and_eq h 26 6 (by decide)).trans (opcode_encodeR 0 0 0 funct)
  · exact (extractLsb'_eq_of_and_eq h 6 5 (by decide)).trans (shamtOf_encodeR 0 0 0 funct)
  · exact (extractLsb'_eq_of_and_eq h 0 6 (by decide)).trans (functOf_encodeR 0 0 0 funct)
  · exact toNat_lt_eight_of_and_eq h 21 (by decide) (rsOf_encodeR 0 0 0 funct)
  · exact toNat_lt_eight_of_and_eq h 16 (by decide) (rtOf_encodeR 0 0 0 funct)
  · exact toNat_lt_eight_of_and_eq h 11 (by decide) (rdOf_encodeR 0 0 0 funct)

/-- What the strict mask of the three I-format rows asks of a word. -/
theorem fields_of_and_iMask {w : Word} {op : BitVec 6} (h : w &&& 0xFF180000 = encodeI op 0 0 0) :
    opcode w = op ∧ (rsOf w).toNat < 8 ∧ (rtOf w).toNat < 8 := by
  refine ⟨?_, ?_, ?_⟩
  · exact (extractLsb'_eq_of_and_eq h 26 6 (by decide)).trans (opcode_encodeI 0 0 op 0)
  · exact toNat_lt_eight_of_and_eq h 21 (by decide) (rsOf_encodeI 0 0 op 0)
  · exact toNat_lt_eight_of_and_eq h 16 (by decide) (rtOf_encodeI 0 0 op 0)

/-- A word that matches a row decodes to an instruction of that row. -/
theorem exists_decodesTo_of_matches {w : Word} {r : Row} (hr : r ∈ opcodeTable) (h : r.matchesStrictly w = true) :
    ∃ i, DecodesTo w i ∧ opcodeTable[i.row]? = some r := by
  rw [matchesStrictly_iff] at h
  simp only [opcodeTable, List.mem_cons, List.not_mem_nil, or_false] at hr
  rcases hr with rfl | rfl | rfl | rfl | rfl | rfl | rfl
  · obtain ⟨ho, hs, hf, hr⟩ := fields_of_and_rMask (funct := 32) (h.trans (by decide))
    exact ⟨_, .add ho hs hf (by simp [Instr.wf, named_iff, hr]), rfl⟩
  · obtain ⟨ho, hs, hf, hr⟩ := fields_of_and_rMask (funct := 34) (h.trans (by decide))
    exact ⟨_, .sub ho hs hf (by simp [Instr.wf, named_iff, hr]), rfl⟩
  · obtain ⟨ho, hr⟩ := fields_of_and_iMask (op := 35) (h.trans (by decide))
    exact ⟨_, .lw ho (by simp [Instr.wf, named_iff, hr]), rfl⟩
  · obtain ⟨ho, hr⟩ := fields_of_and_iMask (op := 43) (h.trans (by decide))
    exact ⟨_, .sw ho (by simp [Instr.wf, named_iff, hr]), rfl⟩
  · obtain ⟨ho, hr⟩ := fields_of_and_iMask (op := 4) (h.trans (by decide))
    exact ⟨_, .bne ho (by simp [Instr.wf, named_iff, hr]), rfl⟩
  · exact ⟨_, .halt (extractLsb'_eq_of_and_eq h 26 6 (by decide)), rfl⟩
  · exact ⟨_, .noop ((BitVec.and_allOnes (x := w)).symm.trans h), rfl⟩

/-- A word that decodes matches the row of its instruction. -/
theorem matches_row_of_decodesTo {w : Word} {i : Instr} (h : DecodesTo w i) :
    ∃ r, opcodeTable[i.row]? = some r ∧ r.matchesStrictly w = true := by
  have hrow : Laws.TableRow.Statement i := by
    cases i with
    | add rd rs rt => exact Laws.TableRow.add rd rs rt
    | sub rd rs rt => exact Laws.TableRow.sub rd rs rt
    | lw rt imm rs => exact Laws.TableRow.lw rt imm rs
    | sw rt imm rs => exact Laws.TableRow.sw rt imm rs
    | bne rs rt imm => exact Laws.TableRow.bne rs rt imm
    | halt unused => exact Laws.TableRow.halt unused
    | noop => exact Laws.TableRow.noop
  simpa only [encode_of_decodesTo h] using hrow (wf_of_decodesTo h)

theorem decodesTo_unique {w : Word} {i j : Instr} (hi : DecodesTo w i) (hj : DecodesTo w j) : i = j :=
  Except.ok.inj ((decode_of_decodesTo hi).symm.trans (decode_of_decodesTo hj))

/-- Settles O4: a word matches the row of the instruction it decodes to, and no other row, as it decodes to one
instruction only. -/
theorem opcodeTableRowsAreDisjointAndComplete : Obligations.OpcodeTableRowsAreDisjointAndComplete := by
  intro w
  refine ⟨⟨fun hw => ?_, fun ⟨r, hr, hm⟩ => ?_⟩, fun r hr q hq hrm hqm => ?_, fun i hi => ?_⟩
  · obtain ⟨i, hi⟩ := (wellFormedWord_iff_decodesTo w).1 hw
    obtain ⟨r, hr, hm⟩ := matches_row_of_decodesTo hi
    exact ⟨r, List.mem_of_getElem? hr, hm⟩
  · obtain ⟨i, hi, -⟩ := exists_decodesTo_of_matches hr hm
    exact (wellFormedWord_iff_decodesTo w).2 ⟨i, hi⟩
  · obtain ⟨i, hi, hri⟩ := exists_decodesTo_of_matches hr hrm
    obtain ⟨j, hj, hqj⟩ := exists_decodesTo_of_matches hq hqm
    obtain rfl := decodesTo_unique hi hj
    exact Option.some.inj (hri.symm.trans hqj)
  · exact matches_row_of_decodesTo (decode_cases hi)

end Sys2Proof
end

section
/-! Canonical memories as data (log 2), and the programs a launch admits or refuses (30_encoding.md R101): what a memory
reads, said of its entries. -/

namespace Sys2Proof.Machine

/-! ## Entries and reads -/

theorem Memory.read_of_mem {m : Memory} (hm : m.Pairwise fun c d => c.1 < d.1) {c : Nat × Word} (hc : c ∈ m) :
    Memory.read m c.1 = c.2 := by
  induction m with
  | nil => cases hc
  | cons d m ih =>
    rw [List.pairwise_cons] at hm
    rcases List.mem_cons.1 hc with rfl | hc
    · simp [Memory.read]
    · have hlt : d.1 < c.1 := hm.1 c hc
      rw [Memory.read, if_neg (Nat.ne_of_lt hlt), ih hm.2 hc]

theorem Memory.mem_of_read {m : Memory} {i : Nat} (h : Memory.read m i ≠ Config.unlistedWord) :
    (i, Memory.read m i) ∈ m := by
  induction m with
  | nil => exact absurd rfl h
  | cons c m ih =>
    rw [Memory.read] at h ⊢
    split at h
    · rename_i hc
      rw [if_pos hc, ← hc]
      exact List.mem_cons_self
    · rename_i hc
      rw [if_neg hc]
      exact List.mem_cons_of_mem c (ih h)

/-- The entries of a canonical memory are the words that are not 0, at their indices. -/
theorem Memory.mem_iff_read {m : Memory} (hm : Memory.wf m = true) (c : Nat × Word) :
    c ∈ m ↔ Memory.read m c.1 = c.2 ∧ c.2 ≠ Config.unlistedWord := by
  obtain ⟨hp, he⟩ := (Memory.wf_iff m).1 hm
  constructor
  · exact fun hc => ⟨Memory.read_of_mem hp hc, (he c hc).2⟩
  · rintro ⟨hr, hn⟩
    rw [← hr] at hn
    simpa [hr] using Memory.mem_of_read hn

theorem Memory.read_of_ge {m : Memory} (hm : Memory.wf m = true) {i : Nat} (hi : 16 ≤ i) :
    Memory.read m i = Config.unlistedWord :=
  Memory.read_of_not_listed fun c hc => Nat.ne_of_lt (Nat.lt_of_lt_of_le (((Memory.wf_iff m).1 hm).2 c hc).1 hi)

/-- Settles O11: the entries are determined by the reads, and their order by the indices. -/
theorem canonicalMemoriesWithEqualWordsAreEqual : Obligations.CanonicalMemoriesWithEqualWordsAreEqual := by
  intro m n hm hn h
  have hread : ∀ i, Memory.read m i = Memory.read n i := fun i => by
    rcases Nat.lt_or_ge i 16 with hi | hi
    · exact h i hi
    · rw [Memory.read_of_ge hm hi, Memory.read_of_ge hn hi]
  have hasymm : Std.Antisymm fun c d : Nat × Word => c.1 < d.1 := ⟨fun _ _ h h' => absurd h (Nat.lt_asymm h')⟩
  have hirrefl : Std.Irrefl fun c d : Nat × Word => c.1 < d.1 := ⟨fun _ => Nat.lt_irrefl _⟩
  refine List.Pairwise.eq_of_mem_iff ((Memory.wf_iff m).1 hm).1 ((Memory.wf_iff n).1 hn).1 fun c => ?_
  rw [Memory.mem_iff_read hm, Memory.mem_iff_read hn, hread]

/-! ## Well-formed programs -/

theorem firstReserved_eq_none_iff (im : Memory) : firstReserved im = none ↔ wellFormedIM im = true := by
  simp [wellFormedIM]

theorem wellFormedIM_iff (im : Memory) : wellFormedIM im = true ↔ ∀ c ∈ im, wellFormedWord c.2 = true := by
  simp [← firstReserved_eq_none_iff, firstReserved]

theorem wellFormedWord_read {im : Memory} (h : wellFormedIM im = true) (i : Nat) :
    wellFormedWord (Memory.read im i) = true := by
  by_cases hz : Memory.read im i = Config.unlistedWord
  · rw [hz]
    exact wellFormedWord_zero
  · exact (wellFormedIM_iff im).1 h _ (Memory.mem_of_read hz)

/-- The first ill-formed entry of a canonical memory is the first ill-formed word. -/
theorem firstReserved_eq_some {im : Memory} (hm : Memory.wf im = true) {n : Nat}
    (hn : wellFormedWord (Memory.read im n) = false) (hk : ∀ k < n, wellFormedWord (Memory.read im k) = true) :
    firstReserved im = some (n, Memory.read im n) := by
  have hz : Memory.read im n ≠ Config.unlistedWord := fun hz => by
    rw [hz] at hn
    exact absurd (wellFormedWord_zero.symm.trans hn) (by decide)
  obtain ⟨before, after, hs⟩ := List.append_of_mem (Memory.mem_of_read hz)
  have hp := ((Memory.wf_iff im).1 hm).1
  refine List.find?_eq_some_iff_append.2 ⟨by simp [hn], before, after, hs, fun c hc => ?_⟩
  have hlt : c.1 < n := by
    rw [hs, List.pairwise_append] at hp
    obtain ⟨-, -, hlt⟩ := hp
    exact hlt c hc _ List.mem_cons_self
  have hcm : c ∈ im := hs ▸ List.mem_append_left _ hc
  simpa [Memory.read_of_mem hp hcm] using hk c.1 hlt

/-! ## Launch -/

theorem halted_launch (p : Launch) : halted (State.launch p) = false := by
  simp [halted]

/-- Settles O7: both the step and the run function begin with the same test of the program. -/
theorem reservedProgramIsRefused : Obligations.ReservedProgramIsRefused := by
  intro p n fuel hm _ hn hk
  have hfirst := firstReserved_eq_some hm hn hk
  constructor
  · simp [step, halted_launch, instrInExecute, hfirst]
  · simp [runProgram, hfirst]

/-- Settles O8: the fields are those of the definition; the words of a register file of zeros and of a memory with
nothing listed are 0. -/
theorem launchStateFields : Obligations.LaunchStateFields := by
  refine ⟨fun p => ?_, rfl, by decide, fun n => ⟨rfl, rfl⟩⟩
  exact ⟨rfl, rfl, rfl, rfl, rfl, rfl, rfl, rfl, rfl, rfl, rfl, rfl, rfl, halted_launch p⟩

theorem de_bubble_consistent : DE.bubble.Consistent := by
  constructor <;> decide

theorem invariant_launch {p : Launch} (h : p.ok = true) : Invariant (State.launch p) := by
  simp only [Launch.ok, Bool.and_eq_true] at h
  obtain ⟨⟨him, hdm⟩, hw⟩ := h
  exact {
    pcAligned := rfl, fdAligned := rfl, deAligned := rfl
    imCanonical := him, dmCanonical := hdm, imWords := hw
    fdWord := wellFormedWord_zero, deWord := wellFormedWord_zero
    emWord := wellFormedWord_zero, mwWord := wellFormedWord_zero
    deBubble := fun _ => rfl, emBubble := fun _ => rfl, mwBubble := fun _ => rfl
    deFields := de_bubble_consistent
    emNamed := by simp, mwNamed := by simp
    emAlu := by simp, emLw := by simp, mwAlu := by simp, mwLw := by simp
    redirected := fun _ _ => rfl }

/-- Settles O9: the latches of a launch are bubbles, and reset is the launch of an empty program. -/
theorem launchMeetsInvariant : Obligations.LaunchMeetsInvariant :=
  ⟨fun _ h => invariant_launch h, invariant_launch (by decide)⟩

end Sys2Proof.Machine
end

section
/-! When a step completes and in which outcome it ends (41_pipeline_stages.md sections 1 and 8, 60_exceptions.md section
1): in the domain of the cycle function a step is the cycle around the decoded instruction, and a cycle can only end in
an access out of range. -/

namespace Sys2Proof.Machine

/-! ## The domain of the step -/

theorem wordsOk_iff (s : State) : wordsOk s = true ↔
    wellFormedIM s.im = true ∧ wellFormedWord s.fd.instr = true ∧ wellFormedWord s.em.instr = true ∧
      wellFormedWord s.mw.instr = true := by
  simp [wordsOk, and_assoc]

theorem instrInExecute_of_wordsOk {s : State} {i : Instr} (hw : wordsOk s = true) (hi : decode s.de.instr = .ok i) :
    instrInExecute s = .ok i := by
  obtain ⟨him, hfd, hem, hmw⟩ := (wordsOk_iff s).1 hw
  exact instrInExecute_eq_ok.2 ⟨(firstReserved_eq_none_iff _).2 him, hfd, hem, hmw, hi⟩

theorem wordsOk_of_instrInExecute {s : State} {i : Instr} (h : instrInExecute s = .ok i) : wordsOk s = true := by
  obtain ⟨him, hfd, hem, hmw, -⟩ := instrInExecute_eq_ok.1 h
  exact (wordsOk_iff s).2 ⟨(firstReserved_eq_none_iff _).1 him, hfd, hem, hmw⟩

/-- Settles O12: the words are all that the step looks at before it runs the instruction. -/
theorem stepRunsTheDecodedInstruction : Obligations.StepRunsTheDecodedInstruction := by
  intro s i hh hw hi
  simp [step, hh, instrInExecute_of_wordsOk hw hi]

/-! ## The latch Decode forms -/

@[simp] theorem decodeStage_instr (s : State) (fd : FD) : (decodeStage s fd).instr = fd.instr := by
  by_cases h : fd.instr = 0
  · rw [decodeStage_of_zero h, h]
    rfl
  · rw [decodeStage_of_ne_zero h]

theorem decodeStage_consistent (s : State) (fd : FD) : (decodeStage s fd).Consistent := by
  by_cases h : fd.instr = 0
  · rw [decodeStage_of_zero h]
    exact de_bubble_consistent
  · rw [decodeStage_of_ne_zero h]
    exact ⟨rfl, rfl, rfl, rfl, rfl, rfl⟩

theorem decode_of_decodeTableWord {w : Nat} {i : Instr} (h : decodeTableWord 32 w = some i) :
    decode (BitVec.ofNat 32 (w % 2 ^ 32)) = .ok i := by
  unfold decodeTableWord at h
  cases hd : decode (BitVec.ofNat 32 (w % 2 ^ 32)) with
  | ok j => simp_all [Except.toOption]
  | error e => simp_all [Except.toOption]

/-- Settles O14: DE takes the word through Decode, and the words outside DE stay as they are. -/
theorem withFetchWordRunsTheWord : Obligations.WithFetchWordRunsTheWord := by
  intro s w i _ hh hw hi
  have hd := decode_of_decodeTableWord hi
  have hin : (s.withFetchWord 32 w).de.instr = BitVec.ofNat 32 (w % 2 ^ 32) := decodeStage_instr s _
  refine ⟨⟨?_, decodeStage_consistent s _⟩, ?_, rfl⟩
  · rw [hin, encode_of_decodesTo (decode_cases hd)]
  · exact stepRunsTheDecodedInstruction _ i hh hw (hin ▸ hd)

/-! ## The outcomes of the stages -/

theorem writeReg_ne_fault (x : Vector Word 8) (n : RegNum) (v : Word) (e : Fault) : writeReg x n v ≠ .fault e := by
  unfold writeReg
  split <;> simp

theorem writebackStage_ne_fault (s : State) (e : Fault) : writebackStage s ≠ .fault e := by
  unfold writebackStage
  split
  · exact writeReg_ne_fault _ _ _ e
  split
  · exact writeReg_ne_fault _ _ _ e
  · simp

theorem isNoop_eq_false {w : Word} (h : w ≠ 0) : isNoop w = false := by
  simpa [isNoop] using h

theorem memoryStage_of_outOfRange {s : State} (h : dataInRange s = false) :
    memoryStage s = .fault (.dataAddressOutOfRange s.em.aluResult) := by
  simp only [dataInRange, Bool.or_eq_false_iff, Bool.not_eq_false', Bool.or_eq_true, decide_eq_false_iff_not] at h
  obtain ⟨hls, hr⟩ := h
  cases hl : isLw s.em.instr with
  | true => simp [memoryStage, isNoop_eq_false (ne_zero_of_isLw hl), hl, memRead, hr]
  | false =>
    have hs : isSw s.em.instr = true := by simpa [hl] using hls
    simp [memoryStage, isNoop_eq_false (ne_zero_of_isSw hs), hl, hs, memWrite, hr]

theorem memoryStage_eq_fault {s : State} {e : Fault} : memoryStage s = .fault e ↔
    dataInRange s = false ∧ e = .dataAddressOutOfRange s.em.aluResult := by
  cases hd : dataInRange s with
  | true =>
    obtain ⟨m, hm⟩ := exists_memoryStage_of_inRange hd
    simp [hm]
  | false => simp [memoryStage_of_outOfRange hd, eq_comm]

theorem commit_of_fetch_outOfRange {s : State} (h : fetchInRange s = false) :
    commit s none = .fault (.fetchOutOfRange s.pc) := by
  simp only [fetchInRange, Bool.or_eq_false_iff, decide_eq_false_iff_not] at h
  obtain ⟨⟨hs, hd⟩, hp⟩ := h
  simp [commit, hs, hd, fetchStage, iFetch, hp]

theorem commit_eq_fault {s : State} {r : Option Word} {e : Fault} : commit s r = .fault e ↔
    r = none ∧ fetchInRange s = false ∧ e = .fetchOutOfRange s.pc := by
  cases r with
  | some a => simp [commit]
  | none =>
    cases hf : fetchInRange s with
    | true =>
      obtain ⟨f, hf⟩ := exists_commit_none_of_inRange hf
      simp [hf]
    | false => simp [commit_of_fetch_outOfRange hf, eq_comm]

theorem exists_commit {s : State} {r : Option Word} (h : r ≠ none ∨ fetchInRange s = true) :
    ∃ f, commit s r = .next f := by
  cases r with
  | some a => exact ⟨_, rfl⟩
  | none => exact exists_commit_none_of_inRange (h.resolve_left fun h => h rfl)

/-! ## The outcomes of the cycle -/

/-- A cycle ends in a fault only by its Memory access or its fetch. -/
theorem cycle_fault_cases {s : State} {ex : ExOut} {e : Fault} (h : cycle s ex = .fault e) :
    e = .dataAddressOutOfRange s.em.aluResult ∨ e = .fetchOutOfRange s.pc := by
  rcases andThen_eq_fault.1 h with hx | ⟨x, -, h⟩
  · exact absurd hx (writebackStage_ne_fault s e)
  rcases andThen_eq_fault.1 h with hm | ⟨m, -, h⟩
  · exact .inl (memoryStage_eq_fault.1 hm).2
  rcases andThen_eq_fault.1 h with hf | ⟨f, -, h⟩
  · exact .inr (commit_eq_fault.1 hf).2.2
  · cases h

section
variable {s : State} {ex : ExOut} (hw : writebackNamed s = true)
include hw

theorem cycle_of_data_outOfRange (hd : dataInRange s = false) :
    cycle s ex = .fault (.dataAddressOutOfRange s.em.aluResult) := by
  obtain ⟨x, hx⟩ := exists_writebackStage_of_named hw
  simp [cycle, hx, memoryStage_of_outOfRange hd]

theorem cycle_of_fetch_outOfRange (hd : dataInRange s = true) (hr : ex.redirect = none)
    (hf : fetchInRange s = false) : cycle s ex = .fault (.fetchOutOfRange s.pc) := by
  obtain ⟨x, hx⟩ := exists_writebackStage_of_named hw
  obtain ⟨m, hm⟩ := exists_memoryStage_of_inRange hd
  simp [cycle, hx, hm, hr, commit_of_fetch_outOfRange hf]

theorem exists_cycle (hd : dataInRange s = true) (hf : ex.redirect ≠ none ∨ fetchInRange s = true) :
    ∃ t, cycle s ex = .next t := by
  obtain ⟨x, hx⟩ := exists_writebackStage_of_named hw
  obtain ⟨m, hm⟩ := exists_memoryStage_of_inRange hd
  obtain ⟨f, hf⟩ := exists_commit hf
  exact ⟨_, cycle_eq_next.2 ⟨x, m, f, hx, hm, hf, rfl⟩⟩

end

/-! ## The outcomes of the step -/

theorem writebackNamed_of_invariant {s : State} (h : Invariant s) : writebackNamed s = true := by
  simp [writebackNamed, h.mwNamed]

theorem wordsOk_of_invariant {s : State} (h : Invariant s) : wordsOk s = true :=
  (wordsOk_iff s).2 ⟨h.imWords, h.fdWord, h.emWord, h.mwWord⟩

/-- In a reachable state that is not halted the step is a cycle, whose Execute redirect is `exRedirect`. -/
theorem step_eq_cycle_of_invariant {s : State} (h : Invariant s) (hh : halted s = false) :
    ∃ ex, step s = cycle s ex ∧ ex.redirect = exRedirect s := by
  obtain ⟨i, hi⟩ := (wellFormedWord_iff _).1 h.deWord
  refine ⟨exOut i s, ?_, exOut_redirect (decode_cases hi)⟩
  rw [stepRunsTheDecodedInstruction s i hh (wordsOk_of_invariant h) hi, exec_eq_cycle]

/-- Settles O15: the outcomes are those of the cycle, in the order of its stages. -/
theorem stepOutcomes : Obligations.StepOutcomes := by
  intro s h hh
  obtain ⟨ex, hs, hr⟩ := step_eq_cycle_of_invariant h hh
  have hw := writebackNamed_of_invariant h
  rw [hs, ← hr]
  exact ⟨cycle_of_data_outOfRange hw, cycle_of_fetch_outOfRange hw, exists_cycle hw⟩

/-- Settles O16: no cycle ends in the fault `halted`, so the step of a state that is not halted does not. -/
theorem haltedStateIsFinal : Obligations.HaltedStateIsFinal := by
  intro s
  change _ ↔ halted s = true
  constructor
  · intro h
    by_contra hh
    rw [step, if_neg hh] at h
    split at h
    · cases h
    · rw [exec_eq_cycle] at h
      rcases cycle_fault_cases h with h | h <;> cases h
  · intro hh
    rw [step, if_pos hh]

end Sys2Proof.Machine
end

section
/-! A completed step, stage by stage: what it leaves behind Execute, in EM and CTR, in the front and in the counters. The
Execute stage is said of the class of the word in DE, so that later proofs need not name the decoded instruction. -/

namespace Sys2Proof.Machine

/-! ## The Execute stage by the class of DE's word (41_pipeline_stages.md R151 to R153) -/

/-- EM' of the word in DE. A word of no other class is a `halt`, or the bubble, whose fields are 0. -/
def exEm (s : State) : EM :=
  if isAdd s.de.instr then aluOut s (operandA s + operandB s)
  else if isSub s.de.instr then aluOut s (operandA s - operandB s)
  else if isLw s.de.instr then ⟨s.de.instr, effectiveAddress s, 0, s.de.dest⟩
  else if isSw s.de.instr then ⟨s.de.instr, effectiveAddress s, operandB s, 0⟩
  else if isBne s.de.instr then ⟨s.de.instr, operandA s - operandB s, 0, 0⟩
  else ⟨s.de.instr, 0, 0, 0⟩

/-- CTR' of the word in DE (R208). -/
def exCtr (s : State) : PredCounter := if isBne s.de.instr then ctrUpdate (taken s) s.ctr else s.ctr

/-- The events the word in DE counts in Execute (R209 to R214). -/
def exEvents (s : State) : Events := if isBne s.de.instr then bneEvents s else Events.none

/-- What the word in DE hands to the cycle. -/
def exStage (s : State) : ExOut := ⟨exEm s, exRedirect s, exCtr s, exEvents s⟩

theorem exOut_eq_exStage {s : State} {i : Instr} (h : DecodesTo s.de.instr i) : exOut i s = exStage s := by
  cases h with
  | noop h0 =>
    simp [exOut, exStage, exEm, exRedirect, exCtr, exEvents, ExOut.plain, EM.bubble, h0]
  | add ho _ hf _ =>
    have ha : isAdd s.de.instr = true := (isAdd_iff _).2 ⟨ho, hf⟩
    have hb : isBne s.de.instr = false := by simp [isBne, ho]
    simp [exOut, exStage, exEm, exRedirect, exCtr, exEvents, ExOut.plain, ha, hb]
  | sub ho _ hf _ =>
    have ha : isAdd s.de.instr = false := by simp [isAdd, hf]
    have hs : isSub s.de.instr = true := (isSub_iff _).2 ⟨ho, hf⟩
    have hb : isBne s.de.instr = false := by simp [isBne, ho]
    simp [exOut, exStage, exEm, exRedirect, exCtr, exEvents, ExOut.plain, ha, hs, hb]
  | lw ho _ | sw ho _ | halt ho | bne ho _ =>
    simp [exOut, exStage, exEm, exRedirect, exCtr, exEvents, ExOut.plain, bneOut, isAdd, isSub, isAlu, isLw, isSw,
      isBne, ho]

@[simp] theorem exEm_instr (s : State) : (exEm s).instr = s.de.instr := by
  unfold exEm aluOut
  split_ifs <;> rfl

theorem exEm_of_isAdd {s : State} (h : isAdd s.de.instr = true) : exEm s = aluOut s (operandA s + operandB s) :=
  if_pos h

theorem exEm_of_isSub {s : State} (h : isSub s.de.instr = true) : exEm s = aluOut s (operandA s - operandB s) := by
  have ha : isAdd s.de.instr = false := by simp [isAdd, ((isSub_iff _).1 h).2]
  simp [exEm, ha, h]

theorem exEm_of_isLw {s : State} (h : isLw s.de.instr = true) :
    exEm s = ⟨s.de.instr, effectiveAddress s, 0, s.de.dest⟩ := by
  simp [exEm, isAdd, isSub, isAlu_eq_false_of_isLw h, h]

theorem exEm_of_isSw {s : State} (h : isSw s.de.instr = true) :
    exEm s = ⟨s.de.instr, effectiveAddress s, operandB s, 0⟩ := by
  have ha : isAlu s.de.instr = false := by simp [isAlu, (isSw_iff _).1 h]
  simp [exEm, isAdd, isSub, ha, isLw_eq_false_of_isSw h, h]

/-! ## A cycle that completes -/

/-- Data memory after this cycle's Memory stage (R154). -/
def drainedDm (s : State) : Memory :=
  if isSw s.em.instr then Memory.write s.dm (wordIndex s.em.aluResult) s.em.storeData else s.dm

section
variable {s t : State} {ex : ExOut} (h : cycle s ex = .next t)
include h

theorem cycle_backAdvances : BackAdvances s t := by
  obtain ⟨x, m, f, hx, hm, -, rfl⟩ := cycle_eq_next.1 h
  exact backAdvances_assemble hx hm ex f

theorem cycle_writeback : writebackStage s = .next t.x := by
  obtain ⟨x, m, f, hx, -, -, rfl⟩ := cycle_eq_next.1 h
  exact hx

theorem cycle_dm : t.dm = drainedDm s := by
  obtain ⟨x, m, f, -, hm, -, rfl⟩ := cycle_eq_next.1 h
  unfold drainedDm
  split
  · rename_i hs
    exact memoryStage_dm_eq_write hm hs
  · rename_i hs
    exact memoryStage_dm_eq_self hm (by simpa using hs)

theorem cycle_dataInRange : dataInRange s = true := by
  obtain ⟨x, m, f, -, hm, -, -⟩ := cycle_eq_next.1 h
  by_contra hd
  rw [memoryStage_of_outOfRange (by simpa using hd)] at hm
  cases hm

theorem cycle_execute : t.em = ex.em ∧ t.ctr = ex.ctr := by
  obtain ⟨x, m, f, -, -, -, rfl⟩ := cycle_eq_next.1 h
  exact ⟨rfl, rfl⟩

/-- R158, case 1. -/
theorem cycle_redirects {a : Word} (hr : ex.redirect = some a) :
    t.pc = a ∧ t.fd = FD.bubble ∧ t.de = DE.bubble ∧ t.stalls = s.stalls + ex.events.stalls ∧
      t.branches = s.branches + ex.events.branches ∧ t.mispredicts = s.mispredicts + ex.events.mispredicts := by
  obtain ⟨x, m, f, -, -, hf, rfl⟩ := cycle_eq_next.1 h
  rw [hr] at hf
  obtain rfl : _ = f := Host.Outcome.next.inj hf
  exact ⟨rfl, rfl, rfl, rfl, rfl, rfl⟩

/-- R158, cases 2 to 4. -/
theorem cycle_advances (hr : ex.redirect = none) :
    FrontAdvances s t ∧ t.stalls = s.stalls + (ex.events.stalls + decodeStalls s) ∧
      t.branches = s.branches + (ex.events.branches + decodeBranches s) ∧
      t.mispredicts = s.mispredicts + ex.events.mispredicts := by
  obtain ⟨x, m, f, -, -, hf, rfl⟩ := cycle_eq_next.1 h
  obtain ⟨hfront, hev⟩ := commit_none_advances (hr ▸ hf) ex x m
  exact ⟨hfront, by simp [hev], by simp [hev], by simp [hev]⟩

end

/-! ## The front -/

/-- The three ways a front advances. -/
theorem frontAdvances_cases {s t : State} (h : FrontAdvances s t) :
    (stall s = true ∧ t.pc = s.pc ∧ t.fd = s.fd ∧ t.de = DE.bubble) ∨
    (stall s = false ∧ idRedirect s = true ∧
      t.pc = branchTarget (immOf s.fd.instr) ∧ t.fd = FD.bubble ∧ t.de = decodeStage s s.fd) ∨
    (stall s = false ∧ idRedirect s = false ∧ t.pc = s.pc + 4 ∧
      t.fd = ⟨Memory.read s.im (wordIndex s.pc), s.pc + 4, s.ctr⟩ ∧ t.de = decodeStage s s.fd) := by
  unfold FrontAdvances at h
  split at h
  · rename_i hs
    exact .inl ⟨hs, h⟩
  rename_i hs
  rw [Bool.not_eq_true] at hs
  split at h
  · rename_i hd
    exact .inr (.inl ⟨hs, hd, h⟩)
  · rename_i hd
    exact .inr (.inr ⟨hs, by simpa using hd, h⟩)

theorem frontAdvances_sequential {s t : State} (h : FrontAdvances s t) (hs : stall s = false)
    (hd : idRedirect s = false) : t.pc = s.pc + 4 ∧
      t.fd = ⟨Memory.read s.im (wordIndex s.pc), s.pc + 4, s.ctr⟩ ∧ t.de = decodeStage s s.fd := by
  simpa [FrontAdvances, hs, hd] using h

theorem frontAdvances_idRedirect {s t : State} (h : FrontAdvances s t) (hd : idRedirect s = true) :
    t.pc = branchTarget (immOf s.fd.instr) ∧ t.fd = FD.bubble ∧ t.de = decodeStage s s.fd := by
  simpa [FrontAdvances, ((idRedirect_iff s).1 hd).1, hd] using h

theorem frontAdvances_stall {s t : State} (h : FrontAdvances s t) (hs : stall s = true) :
    t.pc = s.pc ∧ t.fd = s.fd ∧ t.de = DE.bubble := by
  simpa [FrontAdvances, hs] using h

theorem frontAdvances_decodes {s t : State} (h : FrontAdvances s t) (hs : stall s = false) :
    t.de = decodeStage s s.fd := by
  rcases frontAdvances_cases h with ⟨hs', -⟩ | ⟨-, -, -, -, hde⟩ | ⟨-, -, -, -, hde⟩
  · simp [hs] at hs'
  · exact hde
  · exact hde

/-! ## A step that completes -/

section
variable {s t : State} (h : step s = .next t)
include h

theorem step_not_halted : halted s = false := (step_eq_next.1 h).1

theorem step_decodes : ∃ i, instrInExecute s = .ok i ∧ DecodesTo s.de.instr i ∧ exec i s = .next t := by
  obtain ⟨-, i, hi, he⟩ := step_eq_next.1 h
  obtain ⟨-, -, -, -, hd⟩ := instrInExecute_eq_ok.1 hi
  exact ⟨i, hi, decode_cases hd, he⟩

theorem step_wordsOk : wordsOk s = true := by
  obtain ⟨i, hi, -, -⟩ := step_decodes h
  exact wordsOk_of_instrInExecute hi

theorem step_deWord : wellFormedWord s.de.instr = true := by
  obtain ⟨i, -, hd, -⟩ := step_decodes h
  exact (wellFormedWord_iff_decodesTo _).2 ⟨i, hd⟩

/-- A step that completes is the cycle around the Execute stage of the word in DE. -/
theorem step_cycle : cycle s (exStage s) = .next t := by
  obtain ⟨i, -, hd, he⟩ := step_decodes h
  rwa [exec_eq_cycle, exOut_eq_exStage hd] at he

theorem step_backAdvances : BackAdvances s t := cycle_backAdvances (step_cycle h)
theorem step_writeback : writebackStage s = .next t.x := cycle_writeback (step_cycle h)
theorem step_dm : t.dm = drainedDm s := cycle_dm (step_cycle h)
theorem step_dataInRange : dataInRange s = true := cycle_dataInRange (step_cycle h)
theorem step_em : t.em = exEm s := (cycle_execute (step_cycle h)).1
theorem step_ctr : t.ctr = exCtr s := (cycle_execute (step_cycle h)).2

theorem step_redirects {a : Word} (hr : exRedirect s = some a) :
    t.pc = a ∧ t.fd = FD.bubble ∧ t.de = DE.bubble ∧ t.stalls = s.stalls + (exEvents s).stalls ∧
      t.branches = s.branches + (exEvents s).branches ∧ t.mispredicts = s.mispredicts + (exEvents s).mispredicts :=
  cycle_redirects (step_cycle h) hr

theorem step_advances (hr : exRedirect s = none) :
    FrontAdvances s t ∧ t.stalls = s.stalls + ((exEvents s).stalls + decodeStalls s) ∧
      t.branches = s.branches + ((exEvents s).branches + decodeBranches s) ∧
      t.mispredicts = s.mispredicts + (exEvents s).mispredicts :=
  cycle_advances (step_cycle h) hr

theorem step_frontAdvances (hr : exRedirect s = none) : FrontAdvances s t := (step_advances h hr).1

end

end Sys2Proof.Machine
end

section
/-! The stages in every step (41_pipeline_stages.md sections 2 to 5 and 7, 42_hazards_forwarding.md section 2): Memory,
Fetch, Decode, the hazard detector, and who wins PC', FD' and DE'. -/

namespace Sys2Proof.Machine

/-- Settles O18: the Memory stage is the same whatever instruction stands in Execute. -/
theorem memoryStageAccessesOneWord : Obligations.MemoryStageAccessesOneWord := by
  intro s t h
  have hb : BackAdvances s t := step_backAdvances h
  exact ⟨hb.mw, hb.dataMemory, fun hs => by simp [step_dm h, drainedDm, hs], hb.im⟩

/-! ## The redirect of Execute -/

/-- The two redirects of a `bne` (R209, R211). -/
theorem exRedirect_eq_some {s : State} {a : Word} : exRedirect s = some a ↔ isBne s.de.instr = true ∧
    ((taken s = true ∧ predT s.de.pred = false ∧ a = s.de.target) ∨
      (taken s = false ∧ predT s.de.pred = true ∧ a = s.de.pcPlus4)) := by
  cases hb : isBne s.de.instr with
  | false => simp [exRedirect, hb]
  | true =>
    simp only [exRedirect, hb, if_true, true_and, bneRedirect]
    cases taken s <;> cases predT s.de.pred <;> simp [eq_comm]

/-- A `bne` that does not redirect goes where its prediction said (R210, R212). -/
theorem taken_eq_predT_of_no_redirect {s : State} (hb : isBne s.de.instr = true) (hr : exRedirect s = none) :
    taken s = predT s.de.pred := by
  rw [exRedirect, if_pos hb, bneRedirect] at hr
  cases ht : taken s <;> cases hp : predT s.de.pred <;> simp [ht, hp] at hr ⊢

theorem ne_zero_of_isBne {w : Word} (h : isBne w = true) : w ≠ 0 :=
  ne_zero_of_opcode_ne_zero (by rw [(isBne_iff w).1 h]; decide)

theorem stall_eq_false_of_isBne {s : State} (h : isBne s.de.instr = true) : stall s = false := by
  simp [stall, (isBne_iff _).1 h]

theorem stall_eq_false_of_exRedirect {s : State} (h : exRedirect s ≠ none) : stall s = false := by
  obtain ⟨a, ha⟩ := Option.ne_none_iff_exists'.1 h
  exact stall_eq_false_of_isBne (exRedirect_eq_some.1 ha).1

theorem exRedirect_eq_none_of_stall {s : State} (h : stall s = true) : exRedirect s = none := by
  by_contra hr
  simp [stall_eq_false_of_exRedirect hr] at h

/-! ## Fetch -/

/-- Settles O19: the sequential case latches the candidate, the others hold or squash FD and need no fetch. -/
theorem fetchLatchesTheNextWord : Obligations.FetchLatchesTheNextWord := by
  refine ⟨fun s t h hr hs hd => ?_, fun s t h hdis => ?_, fun s hi hh hdm hdis => ?_⟩
  · obtain ⟨hpc, hfd, -⟩ := frontAdvances_sequential (step_frontAdvances h hr) hs hd
    exact ⟨hfd, hpc⟩
  · cases hr : exRedirect s with
    | some a =>
      obtain ⟨-, hfd, -⟩ := step_redirects h hr
      exact .inl hfd
    | none =>
      rcases frontAdvances_cases (step_frontAdvances h hr) with ⟨-, -, hfd, -⟩ | ⟨-, -, -, hfd, -⟩ | ⟨hs, hd, -⟩
      · exact .inr hfd
      · exact .inl hfd
      · simp [hr, hs, hd] at hdis
  · refine (stepOutcomes s hi hh).2.2 hdm (hdis.imp_right fun hdis => ?_)
    rcases hdis with hs | hd
    · simp [fetchInRange, hs]
    · simp [fetchInRange, hd]

/-! ## Decode -/

/-- Settles O20: without a stall and a redirect DE' is the Decode candidate, which is the bubble for the word 0. -/
theorem decodeLatchesItsCandidate : Obligations.DecodeLatchesItsCandidate := by
  intro s t h hr hs
  have hde : t.de = decodeStage s s.fd := frontAdvances_decodes (step_frontAdvances h hr) hs
  exact ⟨fun h0 => hde.trans (decodeStage_of_zero h0), fun h0 => hde.trans (decodeStage_of_ne_zero h0)⟩

/-! ## The priority of the commit -/

/-- Settles O21: the redirect of Execute is first, and the other cases are those of an advancing front. -/
theorem commitPriority : Obligations.CommitPriority := by
  intro s t h
  refine ⟨fun a ha => ?_, step_frontAdvances h, ?_⟩
  · obtain ⟨hpc, hfd, hde, -⟩ := step_redirects h ha
    exact ⟨⟨ha, hpc, hfd, hde⟩, stall_eq_false_of_exRedirect (by simp [ha])⟩
  · cases hr : exRedirect s with
    | some a =>
      have hpc : t.pc = a := (step_redirects h hr).1
      rcases (exRedirect_eq_some.1 hr).2 with ⟨-, -, ha⟩ | ⟨-, -, ha⟩
      · exact .inl (hpc.trans ha)
      · exact .inr (.inl (hpc.trans ha))
    | none =>
      rcases frontAdvances_cases (step_frontAdvances h hr) with ⟨-, hpc, -⟩ | ⟨-, -, hpc, -⟩ | ⟨-, -, hpc, -⟩
      · exact .inr (.inr (.inl hpc))
      · exact .inr (.inr (.inr (.inl hpc)))
      · exact .inr (.inr (.inr (.inr hpc)))

/-! ## The hazard detector -/

/-- R182, R183: of the well-formed words `lw` and `sw` are the producers. -/
theorem stall_iff {s : State} (h : wellFormedWord s.de.instr = true) : stall s = true ↔
    (isLw s.de.instr = true ∨ isSw s.de.instr = true) ∧
      (rsOf s.fd.instr = s.de.dest ∨ rtOf s.fd.instr = s.de.dest) := by
  obtain ⟨i, hi⟩ := (wellFormedWord_iff_decodesTo _).1 h
  have hp : (!isNoop s.de.instr && opcode s.de.instr != 63 && opcode s.de.instr != 4 && opcode s.de.instr != 0) =
      (isLw s.de.instr || isSw s.de.instr) := by
    cases hi with
    | noop h0 => simp [h0, isNoop]
    | lw ho _ | sw ho _ =>
      have hn : isNoop s.de.instr = false := isNoop_eq_false (ne_zero_of_opcode_ne_zero (by rw [ho]; decide))
      simp [hn, ho, isLw, isSw]
    | add ho _ _ _ | sub ho _ _ _ | bne ho _ | halt ho => simp [ho, isLw, isSw]
  simp only [stall, hp]
  simp

theorem destOf_of_isAlu {w : Word} (h : isAlu w = true) : destOf w = rdOf w := if_pos ((isAlu_iff w).1 h).1

theorem destOf_of_isLw {w : Word} (h : isLw w = true) : destOf w = rtOf w :=
  if_neg (by rw [(isLw_iff w).1 h]; decide)

theorem destOf_of_isSw {w : Word} (h : isSw w = true) : destOf w = rtOf w :=
  if_neg (by rw [(isSw_iff w).1 h]; decide)

theorem stall_eq_false_of_bubble {s : State} (h : s.de = DE.bubble) : stall s = false := by
  simp [stall, h, isNoop]

theorem exRedirect_eq_none_of_bubble {s : State} (h : s.de = DE.bubble) : exRedirect s = none :=
  exRedirect_eq_none_of_not_isBne (by simp [h])

/-- A word that makes the detector stall is no branch, so that it counts nothing in Execute. -/
theorem exEvents_eq_none_of_stall {s : State} (h : stall s = true) : exEvents s = Events.none := by
  refine if_neg fun hb => ?_
  simp [stall_eq_false_of_isBne hb] at h

/-- Settles O22: a stall puts the bubble into DE, behind which nothing stalls or redirects. -/
theorem stallHoldsOneCycle : Obligations.StallHoldsOneCycle := by
  refine ⟨fun s hw => stall_iff hw, fun s hi hp => ?_, fun s t h hs => ?_⟩
  · rw [hi.deFields.dest]
    exact hp.elim destOf_of_isLw destOf_of_isSw
  · obtain ⟨hfront, hst, -⟩ := step_advances h (exRedirect_eq_none_of_stall hs)
    obtain ⟨hpc, hfd, hde⟩ := frontAdvances_stall hfront hs
    have hst' : t.stalls = s.stalls + 1 := by simpa [exEvents_eq_none_of_stall hs, decodeStalls, hs] using hst
    have hnext : stall t = false := stall_eq_false_of_bubble hde
    have hnr : exRedirect t = none := exRedirect_eq_none_of_bubble hde
    refine ⟨hpc, hfd, hde, hst', hnext, hnr, fun u hu => ?_⟩
    rw [← hfd]
    exact frontAdvances_decodes (step_frontAdvances hu hnr) hnext

/-! ## The speculative redirect (43_branch_prediction.md section 2) -/

theorem exEvents_stalls (s : State) :
    (exEvents s).stalls = if isBne s.de.instr then (bneEvents s).stalls else 0 := by
  unfold exEvents
  split <;> rfl

theorem exEvents_mispredicts (s : State) :
    (exEvents s).mispredicts = if isBne s.de.instr then (bneEvents s).mispredicts else 0 := by
  unfold exEvents
  split <;> rfl

theorem exEvents_branches (s : State) :
    (exEvents s).branches = if isBne s.de.instr then (bneEvents s).branches else 0 := by
  unfold exEvents
  split <;> rfl

/-- Settles O23: the carried prediction is what the Decode redirect asks of a `bne`. -/
theorem decodeRedirectsPredictedBranch : Obligations.DecodeRedirectsPredictedBranch := by
  intro s t h hr hs hb
  obtain ⟨hfront, hst, hbr, -⟩ := step_advances h hr
  rw [← exEvents_stalls, ← exEvents_branches, hst, hbr]
  constructor
  · intro hp
    have hd : idRedirect s = true := (idRedirect_iff s).2 ⟨hs, hb, hp⟩
    obtain ⟨hpc, hfd, hde⟩ := frontAdvances_idRedirect hfront hd
    have hn : s.fd.instr ≠ 0 := ne_zero_of_isBne hb
    have hpred : t.de.pred = 3 := by rw [hde, decodeStage_of_ne_zero hn, hp]
    have hds : decodeStalls s = 1 := by simp [decodeStalls, hd]
    have hdb : decodeBranches s = 1 := by simp [decodeBranches, hd]
    exact ⟨hpc, hfd, hde, by rw [hde, decodeStage_instr], hpred, by omega, by omega⟩
  · intro hp
    have hd : idRedirect s = false := by
      rw [Bool.eq_false_iff, Ne, idRedirect_iff]
      exact fun hd => hp hd.2.2
    obtain ⟨hpc, hfd, hde⟩ := frontAdvances_sequential hfront hs hd
    exact ⟨hpc, hfd, hde, by simp [decodeStalls, hs, hd], by simp [decodeBranches, hd]⟩

end Sys2Proof.Machine
end

section
/-! `bne`, `halt` and `noop` in Execute (41_pipeline_stages.md section 4, 43_branch_prediction.md section 3): the four
outcomes of a `bne` are one cycle around `bneOut`, told apart by its direction and the prediction it carries. -/

namespace Sys2Proof.Machine

/-- Settles O26: both are plain in Execute, with zeros in EM. -/
theorem haltAndNoopExecute : Obligations.HaltAndNoopExecute := by
  intro s hw hd hf
  refine ⟨fun u h => exec_completes_of_plain ?_ hw hd hf, fun _ => exec_completes_of_plain rfl hw hd hf⟩
  rw [exOut, h.1]

/-! ## The `bne` in Execute -/

section
variable {rs rt : RegNum} {imm : Imm16} {s : State} (h : s.de.Holds (.bne rs rt imm))
include h

theorem isBne_of_holds_bne : isBne s.de.instr = true := by
  rw [h.1, isBne_iff]
  exact opcode_encodeI rs rt 4 imm

theorem operands_of_holds_bne : operandA s = fwdEX s rs s.de.valA ∧ operandB s = fwdEX s rt s.de.valB := by
  obtain ⟨hw, hc⟩ := h
  have hrs : s.de.rs = rs := by rw [hc.rs, hw, encode, rsOf_encodeI]
  have hrt : s.de.rt = rt := by rw [hc.rt, hw, encode, rtOf_encodeI]
  rw [operandA, operandB, hrs, hrt]
  exact ⟨rfl, rfl⟩

theorem target_of_holds_bne : s.de.target = 4 * zext32 imm := by
  obtain ⟨hw, hc⟩ := h
  rw [hc.target, hw, encode, immOf_encodeI]
  rfl

theorem taken_of_holds_bne : taken s = true ↔ fwdEX s rs s.de.valA ≠ fwdEX s rt s.de.valB := by
  obtain ⟨ha, hb⟩ := operands_of_holds_bne h
  rw [taken, branchTaken_iff_ne, ha, hb]

theorem not_taken_of_holds_bne (heq : fwdEX s rs s.de.valA = fwdEX s rt s.de.valB) : taken s = false := by
  rw [Bool.eq_false_iff, Ne, taken_of_holds_bne h]
  exact fun hne => hne heq

theorem exRedirect_of_holds_bne : exRedirect s = bneRedirect s := if_pos (isBne_of_holds_bne h)

/-- The `bne` completes when it redirects or the fetch is in range, with the difference of its operands in EM. -/
theorem exists_bne_cycle (hw : writebackNamed s = true) (hd : dataInRange s = true)
    (hf : bneRedirect s ≠ none ∨ fetchInRange s = true) :
    ∃ t, exec (.bne rs rt imm) s = .next t ∧ cycle s (bneOut s) = .next t ∧ t.em =
      ⟨encode (.bne rs rt imm), fwdEX s rs s.de.valA - fwdEX s rt s.de.valB, 0, 0⟩ := by
  obtain ⟨t, ht⟩ := exists_cycle (ex := bneOut s) hw hd hf
  obtain ⟨ha, hb⟩ := operands_of_holds_bne h
  refine ⟨t, ht, ht, ?_⟩
  rw [(cycle_execute ht).1, bneOut_em, h.1, ha, hb]

/-- A `bne` that redirects: the next state behind Execute, in EM, CTR and the front. -/
theorem exists_bne_redirects (hw : writebackNamed s = true) (hd : dataInRange s = true) {a : Word}
    (hr : bneRedirect s = some a) :
    ∃ t, exec (.bne rs rt imm) s = .next t ∧ BackAdvances s t ∧
      t.em = ⟨encode (.bne rs rt imm), fwdEX s rs s.de.valA - fwdEX s rt s.de.valB, 0, 0⟩ ∧
      FrontSquashed s t a ∧ t.ctr = ctrUpdate (taken s) s.ctr ∧
      t.stalls = s.stalls + (bneEvents s).stalls ∧ t.branches = s.branches + (bneEvents s).branches ∧
      t.mispredicts = s.mispredicts + (bneEvents s).mispredicts := by
  obtain ⟨t, hx, ht, hem⟩ := exists_bne_cycle h hw hd (.inl (by simp [hr]))
  obtain ⟨hpc, hfd, hde, hcount⟩ := cycle_redirects ht hr
  exact ⟨t, hx, cycle_backAdvances ht, hem, ⟨(exRedirect_of_holds_bne h).trans hr, hpc, hfd, hde⟩,
    (cycle_execute ht).2, hcount⟩

/-- A `bne` that does not redirect. -/
theorem exists_bne_advances (hw : writebackNamed s = true) (hd : dataInRange s = true)
    (hf : fetchInRange s = true) (hr : bneRedirect s = none) :
    ∃ t, exec (.bne rs rt imm) s = .next t ∧ BackAdvances s t ∧
      t.em = ⟨encode (.bne rs rt imm), fwdEX s rs s.de.valA - fwdEX s rt s.de.valB, 0, 0⟩ ∧
      FrontAdvances s t ∧ t.ctr = ctrUpdate (taken s) s.ctr ∧
      t.stalls = s.stalls + ((bneEvents s).stalls + decodeStalls s) ∧
      t.branches = s.branches + ((bneEvents s).branches + decodeBranches s) ∧
      t.mispredicts = s.mispredicts + (bneEvents s).mispredicts := by
  obtain ⟨t, hx, ht, hem⟩ := exists_bne_cycle h hw hd (.inr hf)
  obtain ⟨hfront, hcount⟩ := cycle_advances ht hr
  exact ⟨t, hx, cycle_backAdvances ht, hem, hfront, (cycle_execute ht).2, hcount⟩

end

theorem predT_eq_false_of_ne {c : PredCounter} (h : c ≠ 3) : predT c = false := by
  simpa [predT] using h

/-- Settles O27: the redirect is to the target. -/
theorem bneTakenNotPredictedRedirects : Obligations.BneTakenNotPredictedRedirects := by
  intro rs rt imm s h hw hd hne hpred
  have ht : taken s = true := (taken_of_holds_bne h).2 hne
  have hp : predT s.de.pred = false := predT_eq_false_of_ne hpred
  have hr : bneRedirect s = some (4 * zext32 imm) := by simp [bneRedirect, ht, hp, target_of_holds_bne h]
  obtain ⟨t, hx, hback, hem, hfront, hctr, hst, hbr, hmp⟩ := exists_bne_redirects h hw hd hr
  refine ⟨t, hx, hback, hem, hfront, ?_, ?_, ?_, ?_⟩
  · simp [hctr, toNat_ctrUpdate, ht]
  · simp [hst, bneEvents, ht]
  · simp [hbr, bneEvents, hp]
  · simp [hmp, bneEvents, ht, hp]

/-- Settles O28: the prediction was right. -/
theorem bneTakenPredictedGoesOn : Obligations.BneTakenPredictedGoesOn := by
  intro rs rt imm s h hw hd hf hne hpred
  have ht : taken s = true := (taken_of_holds_bne h).2 hne
  have hp : predT s.de.pred = true := (predT_iff _).2 hpred
  have hr : bneRedirect s = none := by simp [bneRedirect, ht, hp]
  obtain ⟨t, hx, hback, hem, hfront, hctr, hst, hbr, hmp⟩ := exists_bne_advances h hw hd hf hr
  refine ⟨t, hx, hback, hem, hfront, ?_, ?_, ?_, ?_⟩
  · simp [hctr, toNat_ctrUpdate, ht]
  · simp [hst, bneEvents, ht, add_assoc]
  · simp [hbr, bneEvents, hp]
  · simp [hmp, bneEvents, ht, hp]

/-- Settles O29: the redirect is to the branch's own fall-through. -/
theorem bneNotTakenPredictedGoesBack : Obligations.BneNotTakenPredictedGoesBack := by
  intro rs rt imm s h hw hd heq hpred
  have ht : taken s = false := not_taken_of_holds_bne h heq
  have hp : predT s.de.pred = true := (predT_iff _).2 hpred
  have hr : bneRedirect s = some s.de.pcPlus4 := by simp [bneRedirect, ht, hp]
  obtain ⟨t, hx, hback, hem, hfront, hctr, hst, hbr, hmp⟩ := exists_bne_redirects h hw hd hr
  refine ⟨t, hx, hback, by rw [hem, heq, sub_self], hfront, ?_, ?_, ?_, ?_⟩
  · simp [hctr, toNat_ctrUpdate, ht]
  · simp [hst, bneEvents, ht]
  · simp [hbr, bneEvents, hp]
  · simp [hmp, bneEvents, ht, hp]

/-- Settles O30: the prediction was right. -/
theorem bneNotTakenNotPredictedGoesOn : Obligations.BneNotTakenNotPredictedGoesOn := by
  intro rs rt imm s h hw hd hf heq hpred
  have ht : taken s = false := not_taken_of_holds_bne h heq
  have hp : predT s.de.pred = false := predT_eq_false_of_ne hpred
  have hr : bneRedirect s = none := by simp [bneRedirect, ht, hp]
  obtain ⟨t, hx, hback, hem, hfront, hctr, hst, hbr, hmp⟩ := exists_bne_advances h hw hd hf hr
  refine ⟨t, hx, hback, by rw [hem, heq, sub_self], hfront, ?_, ?_, ?_, ?_⟩
  · simp [hctr, toNat_ctrUpdate, ht]
  · simp [hst, bneEvents, ht]
  · simp [hbr, bneEvents, hp, add_assoc]
  · simp [hmp, bneEvents, ht, hp]

/-- Settles O33: the four counter values are run through. -/
theorem predictorSaturates : Obligations.PredictorSaturates := by
  unfold Obligations.PredictorSaturates
  decide

end Sys2Proof.Machine
end

section
/-! Every step keeps the invariant of reachable states (10_state.md sections 2 and 7): the parts of `Invariant` are
grouped by the component of the state they speak of. -/

namespace Sys2Proof.Machine

/-! ## The four cases of the front -/

theorem step_front_cases {s t : State} (h : step s = .next t) :
    (∃ a, exRedirect s = some a ∧ t.pc = a ∧ t.fd = FD.bubble ∧ t.de = DE.bubble) ∨
    (exRedirect s = none ∧ stall s = true ∧ t.pc = s.pc ∧ t.fd = s.fd ∧ t.de = DE.bubble) ∨
    (exRedirect s = none ∧ stall s = false ∧ idRedirect s = true ∧
      t.pc = branchTarget (immOf s.fd.instr) ∧ t.fd = FD.bubble ∧ t.de = decodeStage s s.fd) ∨
    (exRedirect s = none ∧ stall s = false ∧ idRedirect s = false ∧ t.pc = s.pc + 4 ∧
      t.fd = ⟨Memory.read s.im (wordIndex s.pc), s.pc + 4, s.ctr⟩ ∧ t.de = decodeStage s s.fd) := by
  cases hr : exRedirect s with
  | some a =>
    obtain ⟨hpc, hfd, hde, -⟩ := step_redirects h hr
    exact .inl ⟨a, rfl, hpc, hfd, hde⟩
  | none =>
    rcases frontAdvances_cases (step_frontAdvances h hr) with hs | hd | hseq
    · exact .inr (.inl ⟨rfl, hs⟩)
    · exact .inr (.inr (.inl ⟨rfl, hd⟩))
    · exact .inr (.inr (.inr ⟨rfl, hseq⟩))

/-! ## Alignment (R26) -/

theorem branchTarget_aligned (imm : Imm16) : (branchTarget imm).toNat % 4 = 0 := by
  rw [branchTarget, BitVec.toNat_mul, show (4 : Word).toNat = 4 from rfl]
  omega

theorem add_four_aligned {a : Word} (h : a.toNat % 4 = 0) : (a + 4).toNat % 4 = 0 := by
  rw [BitVec.toNat_add, show (4 : Word).toNat = 4 from rfl]
  omega

theorem pc_aligned_of_step {s t : State} (hi : Invariant s) (h : step s = .next t) : t.pc.toNat % 4 = 0 := by
  obtain ⟨-, -, hcases⟩ := commitPriority s t h
  rcases hcases with hpc | hpc | hpc | hpc | hpc <;> rw [hpc]
  · rw [hi.deFields.target]
    exact branchTarget_aligned _
  · exact hi.deAligned
  · exact hi.pcAligned
  · exact branchTarget_aligned _
  · exact add_four_aligned hi.pcAligned

/-! ## FD and DE -/

theorem fd_of_step {s t : State} (h : step s = .next t) : t.fd = FD.bubble ∨ t.fd = s.fd ∨
    t.fd = ⟨Memory.read s.im (wordIndex s.pc), s.pc + 4, s.ctr⟩ := by
  rcases step_front_cases h with ⟨_, -, -, hfd, -⟩ | ⟨-, -, -, hfd, -⟩ | ⟨-, -, -, -, hfd, -⟩ | ⟨-, -, -, -, hfd, -⟩
  · exact .inl hfd
  · exact .inr (.inl hfd)
  · exact .inl hfd
  · exact .inr (.inr hfd)

theorem de_of_step {s t : State} (h : step s = .next t) : t.de = DE.bubble ∨ t.de = decodeStage s s.fd := by
  rcases step_front_cases h with ⟨_, -, -, -, hde⟩ | ⟨-, -, -, -, hde⟩ | ⟨-, -, -, -, -, hde⟩ | ⟨-, -, -, -, -, hde⟩
  · exact .inl hde
  · exact .inl hde
  · exact .inr hde
  · exact .inr hde

theorem de_consistent_of_step {s t : State} (h : step s = .next t) : t.de.Consistent := by
  rcases de_of_step h with hde | hde <;> rw [hde]
  · exact de_bubble_consistent
  · exact decodeStage_consistent s s.fd

theorem de_bubble_of_step {s t : State} (h : step s = .next t) (h0 : t.de.instr = 0) : t.de = DE.bubble := by
  rcases de_of_step h with hde | hde
  · exact hde
  · rw [hde, decodeStage_instr] at h0
    rw [hde, decodeStage_of_zero h0]

theorem de_aligned_of_step {s t : State} (hi : Invariant s) (h : step s = .next t) : t.de.pcPlus4.toNat % 4 = 0 := by
  by_cases h0 : t.de.instr = 0
  · rw [de_bubble_of_step h h0]
    rfl
  · rcases de_of_step h with hde | hde
    · exact absurd (congrArg DE.instr hde) h0
    · rw [hde, decodeStage_instr] at h0
      rw [hde, decodeStage_of_ne_zero h0]
      exact hi.fdAligned

/-- A `bne` that Decode passes on with prediction 3 is one it redirects on. -/
theorem idRedirect_of_decoded {s : State} (hs : stall s = false) (hb : isBne (decodeStage s s.fd).instr = true)
    (hp : predT (decodeStage s s.fd).pred = true) : idRedirect s = true := by
  rw [decodeStage_instr] at hb
  rw [decodeStage_of_ne_zero (ne_zero_of_isBne hb), predT_iff] at hp
  exact (idRedirect_iff s).2 ⟨hs, hb, hp⟩

/-- R256: a `bne` predicted taken goes on into DE with the redirect that squashes FD. -/
theorem fd_bubble_of_predicted {s t : State} (h : step s = .next t) (hb : isBne t.de.instr = true)
    (hp : predT t.de.pred = true) : t.fd = FD.bubble := by
  rcases step_front_cases h with
    ⟨_, -, -, hfd, -⟩ | ⟨-, -, -, -, hde⟩ | ⟨-, -, -, -, hfd, -⟩ | ⟨-, hs, hd, -, -, hde⟩
  · exact hfd
  · simp [hde] at hb
  · exact hfd
  · rw [hde] at hb hp
    simp [idRedirect_of_decoded hs hb hp] at hd

/-! ## The words (R100) -/

@[simp] theorem mwNext_instr (s : State) : (mwNext s).instr = s.em.instr := by
  unfold mwNext
  split
  · rename_i h
    exact h.symm
  · rfl

theorem de_word_of_step {s t : State} (h : step s = .next t) : wellFormedWord t.de.instr = true := by
  obtain ⟨-, hfd, -, -⟩ := (wordsOk_iff s).1 (step_wordsOk h)
  rcases de_of_step h with hde | hde <;> rw [hde]
  · exact wellFormedWord_zero
  · rwa [decodeStage_instr]

/-- Every step stays in the domain of the cycle function, as IM is unchanged and the words move on. -/
theorem wordsOk_of_step {s t : State} (h : step s = .next t) : wordsOk t = true := by
  have hde := step_deWord h
  obtain ⟨him, hfd, hem, -⟩ := (wordsOk_iff s).1 (step_wordsOk h)
  have hb := step_backAdvances h
  refine (wordsOk_iff t).2 ⟨by rw [hb.im, him], ?_, by rw [step_em h, exEm_instr, hde], by rw [hb.mw, mwNext_instr, hem]⟩
  rcases fd_of_step h with hf | hf | hf <;> rw [hf]
  · exact wellFormedWord_zero
  · exact hfd
  · exact wellFormedWord_read him _

/-! ## EM and MW (R45, R46) -/

theorem isAlu_iff_isAdd_or_isSub (w : Word) : isAlu w = true ↔ isAdd w = true ∨ isSub w = true := by
  rw [isAlu_iff, isAdd_iff, isSub_iff]
  tauto

theorem exEm_of_zero {s : State} (h : s.de.instr = 0) : exEm s = EM.bubble := by
  simp [exEm, EM.bubble, h]

theorem mwNext_of_zero {s : State} (h : s.em.instr = 0) : mwNext s = MW.bubble := if_pos h

/-- An instruction that writes a register takes its destination from DE, every other one has 0. -/
theorem exEm_dest (s : State) : (exEm s).dest = if writesRegister s.de.instr then s.de.dest else 0 := by
  have hcls := isAlu_iff_isAdd_or_isSub s.de.instr
  by_cases ha : isAlu s.de.instr = true
  · rcases hcls.1 ha with h | h
    · simp [exEm_of_isAdd h, aluOut, writesRegister, ha]
    · simp [exEm_of_isSub h, aluOut, writesRegister, ha]
  by_cases hl : isLw s.de.instr = true
  · simp [exEm_of_isLw hl, writesRegister, hl]
  · simp only [exEm, isAdd, isSub, writesRegister, ha, hl]
    split_ifs <;> simp_all

theorem mwNext_dest_of_writesRegister {s : State} (h : writesRegister s.em.instr = true) :
    (mwNext s).dest = s.em.dest := by
  rw [writesRegister, Bool.or_eq_true] at h
  have h0 : s.em.instr ≠ 0 := h.elim ne_zero_of_isAlu ne_zero_of_isLw
  have hs : isSw s.em.instr = false := h.elim isSw_eq_false_of_isAlu isSw_eq_false_of_isLw
  rw [mwNext, if_neg h0]
  simp [hs]

theorem mwNext_named {s : State} (h : s.em.dest.toNat < 8) : (mwNext s).dest.toNat < 8 := by
  unfold mwNext
  split
  · simp
  · simp only
    split
    · simp
    · exact h

theorem destOf_named {w : Word} (hw : wellFormedWord w = true) (h : writesRegister w = true) :
    (destOf w).toNat < 8 := by
  rw [writesRegister, Bool.or_eq_true] at h
  rcases (exists_decodesTo_iff_fields w).1 ((wellFormedWord_iff_decodesTo w).1 hw) with
    rfl | ho | ⟨ho, -, -, -, -, hd⟩ | ⟨ho, -, ht⟩
  · simp at h
  · simp [isAlu, isLw, ho] at h
  · rwa [destOf, if_pos ho]
  · rwa [destOf, if_neg (by rcases ho with ho | ho | ho <;> rw [ho] <;> decide)]

theorem exEm_named {s : State} (hi : Invariant s) : (exEm s).dest.toNat < 8 := by
  rw [exEm_dest]
  split
  · rename_i hw
    rw [hi.deFields.dest]
    exact destOf_named hi.deWord hw
  · simp

theorem exEm_dest_eq_destOf {s : State} (hi : Invariant s) (h : writesRegister s.de.instr = true) :
    (exEm s).dest = destOf s.de.instr := by
  rw [exEm_dest, if_pos h, hi.deFields.dest]

/-! ## The invariant -/

theorem dm_wf_of_step {s t : State} (hi : Invariant s) (h : step s = .next t) : Memory.wf t.dm = true := by
  have hd := step_dataInRange h
  rw [step_dm h, drainedDm]
  split
  · rename_i hs
    exact Memory.wf_write _ (by simpa [dataInRange, hs] using hd) hi.dmCanonical
  · exact hi.dmCanonical

theorem invariant_of_step {s t : State} (hi : Invariant s) (h : step s = .next t) : Invariant t := by
  have hb := step_backAdvances h
  obtain ⟨himw, hfdw, hemw, hmww⟩ := (wordsOk_iff t).1 (wordsOk_of_step h)
  have hfd : t.fd.pcPlus4.toNat % 4 = 0 := by
    rcases fd_of_step h with hf | hf | hf <;> rw [hf]
    · rfl
    · exact hi.fdAligned
    · exact add_four_aligned hi.pcAligned
  have hemAlu (ha : isAlu s.de.instr = true) : (exEm s).dest = rdOf s.de.instr :=
    (exEm_dest_eq_destOf hi (by simp [writesRegister, ha])).trans (destOf_of_isAlu ha)
  have hemLw (hl : isLw s.de.instr = true) : (exEm s).dest = rtOf s.de.instr :=
    (exEm_dest_eq_destOf hi (by simp [writesRegister, hl])).trans (destOf_of_isLw hl)
  have hmwAlu (ha : isAlu s.em.instr = true) : (mwNext s).dest = rdOf s.em.instr :=
    (mwNext_dest_of_writesRegister (by simp [writesRegister, ha])).trans (hi.emAlu ha)
  have hmwLw (hl : isLw s.em.instr = true) : (mwNext s).dest = rtOf s.em.instr :=
    (mwNext_dest_of_writesRegister (by simp [writesRegister, hl])).trans (hi.emLw hl)
  exact {
    pcAligned := pc_aligned_of_step hi h, fdAligned := hfd, deAligned := de_aligned_of_step hi h
    imCanonical := by rw [hb.im]; exact hi.imCanonical
    dmCanonical := dm_wf_of_step hi h
    imWords := himw, fdWord := hfdw, deWord := de_word_of_step h, emWord := hemw, mwWord := hmww
    deBubble := de_bubble_of_step h
    emBubble := by rw [step_em h, exEm_instr]; exact exEm_of_zero
    mwBubble := by rw [hb.mw, mwNext_instr]; exact mwNext_of_zero
    deFields := de_consistent_of_step h
    emNamed := by rw [step_em h]; exact exEm_named hi
    mwNamed := by rw [hb.mw]; exact mwNext_named hi.emNamed
    emAlu := by rw [step_em h, exEm_instr]; exact hemAlu
    emLw := by rw [step_em h, exEm_instr]; exact hemLw
    mwAlu := by rw [hb.mw, mwNext_instr]; exact hmwAlu
    mwLw := by rw [hb.mw, mwNext_instr]; exact hmwLw
    redirected := fd_bubble_of_predicted h }

/-- Settles O10: component by component. -/
theorem stepKeepsInvariant : Obligations.StepKeepsInvariant := fun _ _ => invariant_of_step

end Sys2Proof.Machine
end

section
/-! What follows a step: the slots behind a redirect and a `halt` (43_branch_prediction.md section 4, 41_pipeline_stages.md
section 8), the word fetched two cycles before, and the growth of the counters (60_exceptions.md section 3). -/

namespace Sys2Proof.Machine

/-! ## The slots behind a redirect -/

theorem exStage_of_zero {s : State} (h : s.de.instr = 0) : exCtr s = s.ctr ∧ exEvents s = Events.none := by
  simp [exCtr, exEvents, h]

theorem idRedirect_eq_false_of_bubble {s : State} (h : s.fd = FD.bubble) : idRedirect s = false := by
  simp [idRedirect, h]

/-- Settles O40: the step after the redirect finds a bubble in DE, which has no events, and one in FD. -/
theorem squashedSlotsDoNothing : Obligations.SquashedSlotsDoNothing := by
  intro s t u h hr hu
  obtain ⟨a, ha⟩ := Option.ne_none_iff_exists'.1 hr
  obtain ⟨-, hfd, hde, -⟩ := step_redirects h ha
  have h0 : t.de.instr = 0 := by rw [hde]; rfl
  have hs : stall t = false := stall_eq_false_of_bubble hde
  have hd : idRedirect t = false := idRedirect_eq_false_of_bubble hfd
  obtain ⟨hctr, hev⟩ := exStage_of_zero h0
  obtain ⟨hfront, hst, hbr, hmp⟩ := step_advances hu (exRedirect_eq_none_of_bubble hde)
  have hde' : u.de = DE.bubble := by
    rw [frontAdvances_decodes hfront hs]
    exact decodeStage_of_zero (by rw [hfd]; rfl)
  refine ⟨hfd, hde, hde', (step_em hu).trans (exEm_of_zero h0), (step_ctr hu).trans hctr, ?_, ?_, ?_⟩
  · simpa [hev, decodeStalls, hs, hd] using hst
  · simpa [hev, decodeBranches, hd] using hbr
  · simpa [hev] using hmp

/-! ## The halt on its way to MW -/

theorem exEm_of_isHalt {s : State} (h : isHalt s.de.instr = true) : exEm s = ⟨s.de.instr, 0, 0, 0⟩ := by
  rw [isHalt_iff] at h
  simp [exEm, isAdd, isSub, isAlu, isLw, isSw, isBne, h]

/-- A `halt` with zeros in EM passes through the Memory stage as it is. -/
theorem mwNext_of_isHalt {s : State} {w : Word} (hw : isHalt w = true) (h : s.em = ⟨w, 0, 0, 0⟩) :
    mwNext s = ⟨w, 0, 0, 0⟩ := by
  rw [isHalt_iff] at hw
  have h0 : w ≠ 0 := ne_zero_of_opcode_ne_zero (by rw [hw]; decide)
  rw [mwNext, h, if_neg h0]
  simp [isLw, isSw, hw]

/-- Settles O41: EM' and MW' of a `halt`, and Writeback and Memory of the two steps. -/
theorem haltReachesWriteback : Obligations.HaltReachesWriteback := by
  intro s t u hh h hu
  have hem : t.em = ⟨s.de.instr, 0, 0, 0⟩ := (step_em h).trans (exEm_of_isHalt hh)
  have hb := step_backAdvances h
  have hbu := step_backAdvances hu
  have hmw : u.mw = ⟨s.de.instr, 0, 0, 0⟩ := hbu.mw.trans (mwNext_of_isHalt hh hem)
  have hhu : halted u = true := by rw [halted, hmw]; exact hh
  have hdm : u.dm = t.dm := by
    rw [step_dm hu, drainedDm, hem]
    simp [isSw, (isHalt_iff _).1 hh]
  exact ⟨hem, hmw, hhu, (haltedStateIsFinal u).2 hhu, hb.registers, hbu.registers, hb.dataMemory, hdm⟩

/-! ## From Fetch to Execute -/

/-- Settles O13: two advances of the front, and the domain of the step is kept. -/
theorem fetchedWordIsExecutedTwoCyclesLater : Obligations.FetchedWordIsExecutedTwoCyclesLater := by
  intro s t u w h hu hr hs hd hr' hs' hw
  obtain ⟨-, hfd, -⟩ := frontAdvances_sequential (step_frontAdvances h hr) hs hd
  rw [← hw] at hfd
  have hde : u.de = decodeStage t ⟨w, s.pc + 4, s.ctr⟩ :=
    hfd ▸ frontAdvances_decodes (step_frontAdvances hu hr') hs'
  have hin : u.de.instr = w := by rw [hde, decodeStage_instr]
  refine ⟨by rw [hfd], hin, de_consistent_of_step hu, fun h0 => ?_, fun hhu => ?_⟩
  · rw [hde, decodeStage_of_ne_zero h0]
    exact ⟨rfl, rfl⟩
  · obtain ⟨i, hi⟩ := (wellFormedWord_iff _).1 (de_word_of_step hu)
    exact ⟨i, hin ▸ hi, stepRunsTheDecodedInstruction u i hhu (wordsOk_of_step hu) hi⟩

/-! ## The counters -/

theorem step_counters {s t : State} (h : step s = .next t) : t.cycles = s.cycles + 1 ∧
    t.stalls = s.stalls + ((exEvents s).stalls + if exRedirect s = none then decodeStalls s else 0) ∧
    t.branches = s.branches + ((exEvents s).branches + if exRedirect s = none then decodeBranches s else 0) ∧
    t.mispredicts = s.mispredicts + (exEvents s).mispredicts := by
  refine ⟨(step_backAdvances h).cycles, ?_⟩
  cases hr : exRedirect s with
  | some a =>
    obtain ⟨-, -, -, hcount⟩ := step_redirects h hr
    simpa using hcount
  | none =>
    obtain ⟨-, hcount⟩ := step_advances h hr
    simpa using hcount

theorem bneEvents_le_one (s : State) :
    (bneEvents s).stalls ≤ 1 ∧ (bneEvents s).branches ≤ 1 ∧ (bneEvents s).mispredicts ≤ 1 := by
  refine ⟨?_, ?_, ?_⟩ <;> simp only [bneEvents] <;> split <;> simp

theorem exEvents_le_one (s : State) :
    (exEvents s).stalls ≤ 1 ∧ (exEvents s).branches ≤ 1 ∧ (exEvents s).mispredicts ≤ 1 := by
  unfold exEvents
  split
  · exact bneEvents_le_one s
  · simp

theorem decodeEvents_le_one (s : State) : decodeStalls s ≤ 1 ∧ decodeBranches s ≤ 1 := by
  unfold decodeStalls decodeBranches
  constructor <;> split <;> simp

/-- Execute counts a stall only for a taken `bne`; when it does not redirect, it was predicted taken, and Decode finds the
bubble of its redirect behind it. -/
theorem exEvents_stalls_add_decodeStalls_le_one {s : State} (hi : Invariant s) (hr : exRedirect s = none) :
    (exEvents s).stalls + decodeStalls s ≤ 1 := by
  obtain ⟨hex, -, -⟩ := exEvents_le_one s
  obtain ⟨hdec, -⟩ := decodeEvents_le_one s
  by_cases hcount : isBne s.de.instr = true ∧ predT s.de.pred = true
  · obtain ⟨hb, hp⟩ := hcount
    have hz : decodeStalls s = 0 := by
      simp [decodeStalls, stall_eq_false_of_isBne hb, idRedirect_eq_false_of_bubble (hi.redirected hb hp)]
    omega
  · have hz : (exEvents s).stalls = 0 := by
      rw [exEvents_stalls]
      split
      · rename_i hb
        have ht : taken s = false := by
          rw [taken_eq_predT_of_no_redirect hb hr]
          simpa [hb] using hcount
        simp [bneEvents, ht]
      · rfl
    omega

/-- Settles O42: at most one event of Execute and one of Decode, and for the stalls not both. -/
theorem countersGrowByBoundedSteps : Obligations.CountersGrowByBoundedSteps := by
  intro s t hi h
  obtain ⟨hcy, hst, hbr, hmp⟩ := step_counters h
  obtain ⟨hes, heb, hem⟩ := exEvents_le_one s
  obtain ⟨-, hdb⟩ := decodeEvents_le_one s
  by_cases hr : exRedirect s = none
  · have hsum := exEvents_stalls_add_decodeStalls_le_one hi hr
    rw [if_pos hr] at hst hbr
    omega
  · rw [if_neg hr] at hst hbr
    omega

/-! A misprediction is counted of a `bne` that Execute counts in the same cycle or that Decode has counted before. -/

theorem exEvents_mispredicts_le (s : State) :
    (exEvents s).mispredicts ≤ countedInFlight s + (exEvents s).branches := by
  cases hb : isBne s.de.instr with
  | false => simp [exEvents_mispredicts, hb]
  | true =>
    have hone : countedInFlight s + (exEvents s).branches = 1 := by
      rw [countedInFlight, exEvents_branches, bneEvents, hb]
      cases predT s.de.pred <;> rfl
    exact hone.symm ▸ (exEvents_le_one s).2.2

/-- The branch in flight after a step is the one Decode has counted in it. -/
theorem countedInFlight_le_of_step {s t : State} (h : step s = .next t) :
    countedInFlight t ≤ if exRedirect s = none then decodeBranches s else 0 := by
  have hbubble (hde : t.de = DE.bubble) : countedInFlight t = 0 := by simp [countedInFlight, hde]
  rcases step_front_cases h with
    ⟨_, -, -, -, hde⟩ | ⟨-, -, -, -, hde⟩ | ⟨hr, -, hd, -, -, -⟩ | ⟨-, hs, hd, -, -, hde⟩
  · simp [hbubble hde]
  · simp [hbubble hde]
  · rw [if_pos hr, decodeBranches, if_pos hd, countedInFlight]
    split <;> simp
  · rw [countedInFlight, if_neg]
    · exact Nat.zero_le _
    · rw [Bool.and_eq_true, hde]
      rintro ⟨hb, hp⟩
      simp [idRedirect_of_decoded hs hb hp] at hd

/-- Settles O43. -/
theorem mispredictionsNeverExceedBranches : Obligations.MispredictionsNeverExceedBranches := by
  refine ⟨fun p => by simp [countedInFlight], fun s t hle h => ?_⟩
  obtain ⟨-, -, hbr, hmp⟩ := step_counters h
  have h1 := exEvents_mispredicts_le s
  have h2 := countedInFlight_le_of_step h
  omega

end Sys2Proof.Machine
end

section
/-! Program order (42_hazards_forwarding.md sections 3 to 5). One step moves the sources of a register's value one latch on:
the file after a step holds what Decode read in it, and what Decode reads in the next step is what program order gave
before it. Forwarding, the captured base and the way of a result to the register file are read off these two facts. -/

namespace Sys2Proof.Machine

/-! ## MW' by the class of the word -/

theorem mwNext_of_isAlu {s : State} (h : isAlu s.em.instr = true) :
    mwNext s = ⟨s.em.instr, s.em.aluResult, 0, s.em.dest⟩ := by
  have hl : isLw s.em.instr = false := by simp [isLw, ((isAlu_iff _).1 h).1]
  rw [mwNext, if_neg (ne_zero_of_isAlu h)]
  simp [hl, isSw_eq_false_of_isAlu h]

theorem mwNext_of_isLw {s : State} (h : isLw s.em.instr = true) :
    mwNext s = ⟨s.em.instr, s.em.aluResult, Memory.read s.dm (wordIndex s.em.aluResult), s.em.dest⟩ := by
  rw [mwNext, if_neg (ne_zero_of_isLw h)]
  simp [h, isSw_eq_false_of_isLw h]

/-! ## The sources of a register's value -/

theorem fwdEX_eq (s : State) (r : RegNum) (v : Word) :
    fwdEX s r v = if isAlu s.em.instr && s.em.dest == r then s.em.aluResult else fwdID s r v := rfl

theorem programOrderValue_of_isAlu {s : State} {r : RegNum} (h : isAlu s.em.instr = true) (hr : s.em.dest = r) :
    programOrderValue s r = s.em.aluResult := by
  simp [programOrderValue, h, hr]

theorem programOrderValue_of_isLw {s : State} {r : RegNum} (h : isLw s.em.instr = true) (hr : s.em.dest = r) :
    programOrderValue s r = Memory.read s.dm (wordIndex s.em.aluResult) := by
  simp [programOrderValue, isAlu_eq_false_of_isLw h, h, hr]

theorem programOrderValue_of_not_written {s : State} {r : RegNum}
    (h : writesRegister s.em.instr = true → s.em.dest ≠ r) : programOrderValue s r = decodeOperand s r := by
  have ha : (isAlu s.em.instr && s.em.dest == r) = false := by
    rw [Bool.eq_false_iff, Ne, Bool.and_eq_true, beq_iff_eq]
    exact fun ⟨ha, hr⟩ => h (by simp [writesRegister, ha]) hr
  have hl : (isLw s.em.instr && s.em.dest == r) = false := by
    rw [Bool.eq_false_iff, Ne, Bool.and_eq_true, beq_iff_eq]
    exact fun ⟨hl, hr⟩ => h (by simp [writesRegister, hl]) hr
  simp [programOrderValue, ha, hl]

/-- Forwarding into Execute is program order's value, but behind a load, whose word EM does not hold yet. -/
theorem fwdEX_eq_programOrderValue {s : State} {r : RegNum} (hl : isLw s.em.instr = true → s.em.dest ≠ r) :
    fwdEX s r (readReg s.x r) = programOrderValue s r := by
  have hn : (isLw s.em.instr && s.em.dest == r) = false := by
    rw [Bool.eq_false_iff, Ne, Bool.and_eq_true, beq_iff_eq]
    exact fun ⟨hl', hr⟩ => hl hl' hr
  simp [fwdEX_eq, programOrderValue, hn, decodeOperand]

/-- The register file after a step holds what Decode read in it. -/
theorem readReg_of_step {s t : State} (hi : Invariant s) (h : step s = .next t) (r : RegNum) :
    readReg t.x r = decodeOperand s r := by
  by_cases hr : r.toNat < 8
  · exact (fwdID_eq_readReg_of_writtenBack (step_backAdvances h).registers hr).symm
  · have hd : s.mw.dest ≠ r := fun hd => hr (hd ▸ hi.mwNamed)
    simp [decodeOperand, fwdID, readReg, hr, hd]

/-- What Decode reads after a step is what program order gave before it. -/
theorem decodeOperand_of_step {s t : State} (hi : Invariant s) (h : step s = .next t) (r : RegNum) :
    decodeOperand t r = programOrderValue s r := by
  have hmw : t.mw = mwNext s := (step_backAdvances h).mw
  rw [decodeOperand, readReg_of_step hi h, fwdID, hmw]
  by_cases ha : isAlu s.em.instr = true
  · have hl : isLw s.em.instr = false := by simp [isLw, ((isAlu_iff _).1 ha).1]
    simp [mwNext_of_isAlu ha, programOrderValue, hl]
  by_cases hl : isLw s.em.instr = true
  · simp [mwNext_of_isLw hl, programOrderValue]
  · simp [mwNext_instr, programOrderValue, ha, hl]

/-! ## The operands of the word in DE -/

section
variable {s t : State} (hi : Invariant s) (h : step s = .next t)
include hi h

/-- A word in DE has the register file as of the step that decoded it. -/
theorem captured_of_step (h0 : t.de.instr ≠ 0) :
    t.de.valA = readReg t.x t.de.rs ∧ t.de.valB = readReg t.x t.de.rt := by
  rcases de_of_step h with hde | hde
  · exact absurd (congrArg DE.instr hde) h0
  · rw [hde, decodeStage_instr] at h0
    rw [readReg_of_step hi h, readReg_of_step hi h, hde, decodeStage_of_ne_zero h0]
    exact ⟨rfl, rfl⟩

/-- The hazard detector keeps a word out of DE while the load in front of it is in EM (R182). -/
theorem no_load_in_em (h0 : t.de.instr ≠ 0) (hl : isLw t.em.instr = true) :
    t.em.dest ≠ t.de.rs ∧ t.em.dest ≠ t.de.rt := by
  rw [step_em h, exEm_instr] at hl
  have hst : stall s = false ∧ t.de = decodeStage s s.fd := by
    rcases step_front_cases h with
      ⟨_, -, -, -, hde⟩ | ⟨-, -, -, -, hde⟩ | ⟨-, hs, -, -, -, hde⟩ | ⟨-, hs, -, -, -, hde⟩
    · exact absurd (congrArg DE.instr hde) h0
    · exact absurd (congrArg DE.instr hde) h0
    · exact ⟨hs, hde⟩
    · exact ⟨hs, hde⟩
  obtain ⟨hs, hde⟩ := hst
  rw [Bool.eq_false_iff, Ne, stall_iff hi.deWord, not_and_or, not_or] at hs
  have hne : ¬rsOf s.fd.instr = s.de.dest ∧ ¬rtOf s.fd.instr = s.de.dest := by simpa [hl, not_or] using hs
  rw [hde, decodeStage_instr] at h0
  rw [step_em h, exEm_of_isLw hl, hde, decodeStage_of_ne_zero h0]
  exact ⟨fun he => hne.1 he.symm, fun he => hne.2 he.symm⟩

theorem operands_fresh_of_step (h0 : t.de.instr ≠ 0) :
    operandA t = programOrderValue t t.de.rs ∧ operandB t = programOrderValue t t.de.rt := by
  obtain ⟨hA, hB⟩ := captured_of_step hi h h0
  rw [operandA, operandB, hA, hB]
  exact ⟨fwdEX_eq_programOrderValue fun hl => (no_load_in_em hi h h0 hl).1,
    fwdEX_eq_programOrderValue fun hl => (no_load_in_em hi h h0 hl).2⟩

/-- The captured base is the value program order gives, unless the instruction in EM or MW writes it (R190, R280). -/
theorem base_fresh_of_step (h0 : t.de.instr ≠ 0) (hem : writesRegister t.em.instr = true → t.em.dest ≠ t.de.rs)
    (hmw : writesRegister s.em.instr = true → s.em.dest ≠ t.de.rs) : t.de.valA = programOrderValue t t.de.rs := by
  calc t.de.valA = readReg t.x t.de.rs := (captured_of_step hi h h0).1
    _ = decodeOperand s t.de.rs := readReg_of_step hi h _
    _ = programOrderValue s t.de.rs := (programOrderValue_of_not_written hmw).symm
    _ = decodeOperand t t.de.rs := (decodeOperand_of_step hi h _).symm
    _ = programOrderValue t t.de.rs := (programOrderValue_of_not_written hem).symm

end

/-- Settles O34: the operands of every word in DE are fresh. -/
theorem forwardingDeliversProgramOrderValues : Obligations.ForwardingDeliversProgramOrderValues := by
  intro s t hi h
  have hb : isBne t.de.instr = true → t.de.instr ≠ 0 := ne_zero_of_isBne
  exact ⟨fun hc => operands_fresh_of_step hi h (hc.elim ne_zero_of_isAlu hb),
    fun hs => (operands_fresh_of_step hi h (ne_zero_of_isSw hs)).2⟩

/-- Settles O35: what Decode captured is the file after the step. -/
theorem baseRegisterIsCapturedAtDecode : Obligations.BaseRegisterIsCapturedAtDecode := by
  intro s t hi h hls
  have h0 : t.de.instr ≠ 0 := hls.elim ne_zero_of_isLw ne_zero_of_isSw
  have hc : t.de.Consistent := de_consistent_of_step h
  rw [effectiveAddress, hc.imm, ← hc.rs]
  refine ⟨by rw [(captured_of_step hi h h0).1], fun hde hem => base_fresh_of_step hi h h0 (fun hw => ?_) hem⟩
  rw [step_em h, exEm_instr] at hw
  rw [step_em h, exEm_dest, if_pos hw]
  exact hde hw

/-! ## The way of a result -/

/-- Settles O36: the load reads the memory the store has left. -/
theorem loadReadsTheStoreBeforeIt : Obligations.LoadReadsTheStoreBeforeIt := by
  intro s t u h hu hs hl heq
  rw [(step_backAdvances hu).mw, mwNext_of_isLw hl]
  exact ⟨rfl, by simp [(step_backAdvances h).dataMemory _, hs, heq]⟩

/-- The register file holds program order's value of a state two cycles later. -/
theorem readReg_two_steps {s t u : State} (hi : Invariant s) (h : step s = .next t) (hu : step t = .next u)
    (r : RegNum) : readReg u.x r = programOrderValue s r :=
  (readReg_of_step (invariant_of_step hi h) hu r).trans (decodeOperand_of_step hi h r)

/-- Settles O37: one cycle later the result is in EM, where program order takes it from. -/
theorem aluResultReachesTheRegisterFile : Obligations.AluResultReachesTheRegisterFile := by
  intro s s1 s2 s3 hi h h1 h2
  have hres {v : Word} (ha : isAlu s.de.instr = true) (hem : exEm s = aluOut s v) :
      readReg s3.x (rdOf s.de.instr) = v := by
    have hin : isAlu s1.em.instr = true := by rw [step_em h, exEm_instr, ha]
    have hd : s1.em.dest = rdOf s.de.instr := by
      rw [step_em h, hem, aluOut, hi.deFields.dest, destOf_of_isAlu ha]
    rw [readReg_two_steps (invariant_of_step hi h) h1 h2, programOrderValue_of_isAlu hin hd, step_em h, hem, aluOut]
  have hcls := isAlu_iff_isAdd_or_isSub s.de.instr
  exact ⟨fun ha => hres (hcls.2 (.inl ha)) (exEm_of_isAdd ha), fun hs => hres (hcls.2 (.inr hs)) (exEm_of_isSub hs)⟩

/-- Settles O38: one cycle later the address is in EM, where program order takes it from. -/
theorem loadedWordReachesTheRegisterFile : Obligations.LoadedWordReachesTheRegisterFile := by
  intro s s1 s2 s3 hi h h1 h2 hl
  have hem : s1.em = ⟨s.de.instr, effectiveAddress s, 0, s.de.dest⟩ := (step_em h).trans (exEm_of_isLw hl)
  have hd : s1.em.dest = rtOf s.de.instr := by rw [hem, hi.deFields.dest, destOf_of_isLw hl]
  rw [readReg_two_steps (invariant_of_step hi h) h1 h2, programOrderValue_of_isLw (by rw [hem, hl]) hd, hem,
    effectiveAddress, hi.deFields.imm]

/-- Settles O39: one cycle later address and value are in EM. -/
theorem storedWordReachesDataMemory : Obligations.StoredWordReachesDataMemory := by
  intro s s1 s2 hi h h1 hs a
  have hem : s1.em = ⟨s.de.instr, effectiveAddress s, operandB s, 0⟩ := (step_em h).trans (exEm_of_isSw hs)
  rw [(step_backAdvances h1).dataMemory a, hem, effectiveAddress, hi.deFields.imm]
  simp [hs]

end Sys2Proof.Machine
end

section
/-! The reference execution (40_instructions.md): the effect of each instruction taken alone, and where a run stops. -/

namespace Sys2Proof.Machine

/-! ## The effects -/

theorem writeReg_of_lt (x : Vector Word 8) {n : RegNum} (h : n.toNat < 8) (v : Word) :
    writeReg x n v = .next (x.set n.toNat v) := dif_pos h

theorem memRead_of_lt (m : Memory) {a : Word} (h : wordIndex a < 16) :
    memRead m a = .next (Memory.read m (wordIndex a)) := if_pos h

theorem memWrite_of_lt (m : Memory) {a : Word} (h : wordIndex a < 16) (v : Word) :
    memWrite m a v = .next (Memory.write m (wordIndex a) v) := if_pos h

/-- Settles O44: each instruction is its write, with the read rule of what it writes. -/
theorem referenceInstructionEffects : Obligations.ReferenceInstructionEffects := by
  intro a
  refine ⟨fun rd rs rt hrd => ?add, fun rd rs rt hrd => ?sub, fun rt rs imm hrt hidx => ?lw,
    fun rt rs imm hidx => ?sw, fun rs rt imm => ?bne, fun _ => rfl, ?noop⟩
  case add =>
    rw [refExec, writeReg_of_lt _ hrd]
    exact ⟨_, rfl, rfl, rfl, fun r => readReg_set a.x hrd _ r⟩
  case sub =>
    rw [refExec, writeReg_of_lt _ hrd]
    exact ⟨_, rfl, rfl, rfl, fun r => readReg_set a.x hrd _ r⟩
  case lw =>
    rw [refExec, Arch.address, memRead_of_lt _ hidx, andThen_next, writeReg_of_lt _ hrt]
    exact ⟨_, rfl, rfl, rfl, fun r => readReg_set a.x hrt _ r⟩
  case sw =>
    rw [refExec, Arch.address, memWrite_of_lt _ hidx]
    exact ⟨_, rfl, rfl, rfl, fun n => Memory.read_write a.dm _ _ n⟩
  case bne => exact ⟨_, rfl, rfl, rfl, by simp [branchTarget]⟩
  case noop => exact ⟨_, rfl, rfl, rfl, rfl⟩

/-! ## Where the reference stops -/

/-- The two faults a reference step can end in beside the `halt`, with their addresses out of range. -/
def OutOfRange (e : Fault) : Prop :=
  (∃ pc, e = .fetchOutOfRange pc ∧ 16 ≤ wordIndex pc) ∨ ∃ addr, e = .dataAddressOutOfRange addr ∧ 16 ≤ wordIndex addr

theorem refFetch_cases {im : Memory} (him : wellFormedIM im = true) (a : Arch) :
    (∃ i, refFetch im a = .next i) ∨ ∃ e, refFetch im a = .fault e ∧ OutOfRange e := by
  by_cases hp : wordIndex a.pc < 16
  · obtain ⟨i, hi⟩ := (wellFormedWord_iff _).1 (wellFormedWord_read him (wordIndex a.pc))
    exact .inl ⟨i, refFetch_eq_next.2 ⟨hp, hi⟩⟩
  · refine .inr ⟨.fetchOutOfRange a.pc, ?_, .inl ⟨_, rfl, Nat.le_of_not_lt hp⟩⟩
    simp [refFetch, iFetch, hp]

theorem memRead_cases (m : Memory) (a : Word) : (∃ v, memRead m a = .next v) ∨
    ∃ e, memRead m a = .fault e ∧ OutOfRange e := by
  by_cases h : wordIndex a < 16
  · exact .inl ⟨_, if_pos h⟩
  · exact .inr ⟨_, if_neg h, .inr ⟨_, rfl, Nat.le_of_not_lt h⟩⟩

theorem memWrite_cases (m : Memory) (a v : Word) : (∃ n, memWrite m a v = .next n) ∨
    ∃ e, memWrite m a v = .fault e ∧ OutOfRange e := by
  by_cases h : wordIndex a < 16
  · exact .inl ⟨_, if_pos h⟩
  · exact .inr ⟨_, if_neg h, .inr ⟨_, rfl, Nat.le_of_not_lt h⟩⟩

/-- A well-formed instruction goes on, is a `halt`, or accesses data out of range. -/
theorem refExec_cases {i : Instr} (hi : i.wf = true) (a : Arch) :
    (∃ b, refExec i a = .next b) ∨ (∃ u, i = .halt u) ∨ ∃ e, refExec i a = .fault e ∧ OutOfRange e := by
  cases i with
  | add rd rs rt | sub rd rs rt =>
    simp only [Instr.wf, Bool.and_eq_true, named_iff] at hi
    obtain ⟨⟨hrd, -⟩, -⟩ := hi
    exact .inl ⟨_, by rw [refExec, writeReg_of_lt _ hrd, andThen_next]⟩
  | lw rt imm rs =>
    simp only [Instr.wf, Bool.and_eq_true, named_iff] at hi
    obtain ⟨hrt, -⟩ := hi
    rcases memRead_cases a.dm (a.address imm rs) with ⟨v, hv⟩ | ⟨e, he, hr⟩
    · exact .inl ⟨_, by rw [refExec, hv, andThen_next, writeReg_of_lt _ hrt, andThen_next]⟩
    · exact .inr (.inr ⟨e, by rw [refExec, he, andThen_fault], hr⟩)
  | sw rt imm rs =>
    rcases memWrite_cases a.dm (a.address imm rs) (readReg a.x rt) with ⟨n, hn⟩ | ⟨e, he, hr⟩
    · exact .inl ⟨_, by rw [refExec, hn, andThen_next]⟩
    · exact .inr (.inr ⟨e, by rw [refExec, he, andThen_fault], hr⟩)
  | bne rs rt imm => exact .inl ⟨_, rfl⟩
  | halt u => exact .inr (.inl ⟨u, rfl⟩)
  | noop => exact .inl ⟨_, rfl⟩

theorem opcode_eq_of_decode_halt {w : Word} {u : BitVec 26} (h : decode w = .ok (.halt u)) : opcode w = 63 := by
  cases decode_cases h with
  | halt ho => exact ho

/-- One round of the reference: it goes on, stands at a `halt`, or ends in an access out of range. -/
theorem refStep_cases {im : Memory} (him : wellFormedIM im = true) (a : Arch) :
    (∃ b, refStep im a = .next b) ∨
    (refStep im a = .fault .halted ∧ ∃ w, iFetch im a.pc = .next w ∧ isHalt w = true) ∨
    ∃ e, refStep im a = .fault e ∧ OutOfRange e := by
  rcases refFetch_cases him a with ⟨i, hf⟩ | ⟨e, hf, he⟩
  · obtain ⟨hp, hd⟩ := refFetch_eq_next.1 hf
    have hs : refStep im a = refExec i a := by rw [refStep, hf, andThen_next]
    rw [hs]
    rcases refExec_cases (wf_of_decodesTo (decode_cases hd)) a with hb | ⟨u, rfl⟩ | he
    · exact .inl hb
    · exact .inr (.inl ⟨rfl, _, iFetch_eq_next.2 ⟨hp, rfl⟩, (isHalt_iff _).2 (opcode_eq_of_decode_halt hd)⟩)
    · exact .inr (.inr he)
  · exact .inr (.inr ⟨e, by rw [refStep, hf, andThen_fault], he⟩)

theorem refRun_of_outOfRange {im : Memory} {a : Arch} {e : Fault} (h : refStep im a = .fault e) (he : OutOfRange e)
    (n : Nat) : refRun im (n + 1) a = some (.fault e) := by
  rw [refRun, h]
  rcases he with ⟨_, rfl, -⟩ | ⟨_, rfl, -⟩ <;> rfl

/-- Settles O47, by induction on the fuel. -/
theorem referenceRunStopsAtHaltOrOutOfRange : Obligations.ReferenceRunStopsAtHaltOrOutOfRange := by
  intro im n a r him h
  induction n generalizing a with
  | zero => cases h
  | succ n ih =>
    rcases refStep_cases him a with ⟨b, hb⟩ | ⟨hh, w, hw, hwh⟩ | ⟨e, he, hr⟩
    · have hrun (m : Nat) : refRun im (m + 1) a = refRun im m b := by rw [refRun, hb]
      rw [hrun] at h
      obtain ⟨hstop, hmore⟩ := ih b h
      exact ⟨hstop, fun k => by rw [Nat.succ_add, hrun, hmore]⟩
    · have hrun (m : Nat) : refRun im (m + 1) a = some (.next a) := by rw [refRun, hh]
      rw [hrun] at h
      obtain rfl := Option.some.inj h
      exact ⟨.inl ⟨a, w, rfl, hw, hwh⟩, fun k => by rw [Nat.succ_add, hrun]⟩
    · have hrun := refRun_of_outOfRange he hr
      rw [hrun] at h
      obtain rfl := Option.some.inj h
      refine ⟨.inr ?_, fun k => by rw [Nat.succ_add, hrun]⟩
      rcases hr with ⟨pc, rfl, hp⟩ | ⟨addr, rfl, hp⟩
      · exact .inl ⟨pc, rfl, hp⟩
      · exact .inr ⟨addr, rfl, hp⟩

end Sys2Proof.Machine
end

section
/-! One instruction of the reference against one cycle of the pipeline. The architectural state of a pipeline state is what
remains when the instructions in EM and MW have completed (`Drained`); the cycle in which an instruction stands in
Execute changes it as the reference does (40_instructions.md R120). -/

namespace Sys2Proof.Machine

/-! ## The drained state -/

/-- The registers and data memory of `a` are those of `s` after the instructions in MW and EM. -/
structure Drained (s : State) (a : Arch) : Prop where
  regs : ∀ r, readReg a.x r = programOrderValue s r
  dm : a.dm = drainedDm s

section
variable {s t : State} (hi : Invariant s) (h : step s = .next t)
include hi h

/-- Program order's value after a step is changed by the instruction that was in Execute alone. -/
theorem programOrderValue_of_step (r : RegNum) : programOrderValue t r =
    if isAlu s.de.instr && s.de.dest == r then (exEm s).aluResult
    else if isLw s.de.instr && s.de.dest == r then Memory.read (drainedDm s) (wordIndex (exEm s).aluResult)
    else programOrderValue s r := by
  have hdest : writesRegister s.de.instr = true → (exEm s).dest = s.de.dest := fun hw => by rw [exEm_dest, if_pos hw]
  rw [programOrderValue, step_em h, exEm_instr, step_dm h, decodeOperand_of_step hi h]
  by_cases ha : isAlu s.de.instr = true
  · rw [hdest (by simp [writesRegister, ha])]
  by_cases hl : isLw s.de.instr = true
  · rw [hdest (by simp [writesRegister, hl])]
  · simp [ha, hl]

omit hi in
/-- So is the data memory. -/
theorem drainedDm_of_step : drainedDm t =
    if isSw s.de.instr then Memory.write (drainedDm s) (wordIndex (exEm s).aluResult) (exEm s).storeData
    else drainedDm s := by
  rw [drainedDm, step_em h, exEm_instr, step_dm h]

/-- An instruction that writes neither a register nor memory leaves the drained state. -/
theorem drained_of_idle {a : Arch} (hd : Drained s a) (hw : writesRegister s.de.instr = false)
    (hs : isSw s.de.instr = false) : Drained t a := by
  obtain ⟨ha, hl⟩ : isAlu s.de.instr = false ∧ isLw s.de.instr = false := by simpa [writesRegister] using hw
  constructor
  · intro r
    simp [programOrderValue_of_step hi h, ha, hl, hd.regs]
  · simp [drainedDm_of_step h, hs, hd.dm]

end

/-! ## The operands -/

/-- The word in DE has the operands the drained state gives: both forwarded ones, and the base of a `lw` or `sw`. -/
structure OperandsOf (s : State) (a : Arch) : Prop where
  operandA : s.de.instr ≠ 0 → operandA s = readReg a.x s.de.rs
  operandB : s.de.instr ≠ 0 → operandB s = readReg a.x s.de.rt
  base : isLw s.de.instr = true ∨ isSw s.de.instr = true → s.de.valA = readReg a.x s.de.rs

theorem effectiveAddress_of_operandsOf {s : State} {a : Arch} (hc : s.de.Consistent) (ho : OperandsOf s a)
    (hls : isLw s.de.instr = true ∨ isSw s.de.instr = true) :
    effectiveAddress s = a.address (immOf s.de.instr) (rsOf s.de.instr) := by
  rw [effectiveAddress, Arch.address, ho.base hls, hc.imm, hc.rs, add_comm]

/-! ## One instruction -/

/-- The address of the instruction behind the one at `p` in Execute (R125). -/
def actualNext (s : State) (p : Word) : Word := if isBne s.de.instr && taken s then s.de.target else p + 4

theorem actualNext_of_not_isBne {s : State} (h : isBne s.de.instr = false) (p : Word) : actualNext s p = p + 4 := by
  simp [actualNext, h]

theorem dataInRange_of_step {s t : State} (h : step s = .next t) : dataInRange t =
    (!(isLw s.de.instr || isSw s.de.instr) || decide (wordIndex (exEm s).aluResult < 16)) := by
  rw [dataInRange, step_em h, exEm_instr]

theorem dataInRange_of_no_access {s t : State} (h : step s = .next t) (hl : isLw s.de.instr = false)
    (hs : isSw s.de.instr = false) : dataInRange t = true := by
  simp [dataInRange_of_step h, hl, hs]

section
variable {s t : State} {a : Arch} (hi : Invariant s) (h : step s = .next t) (hd : Drained s a)
include hi h hd

/-- The cycle of an instruction that writes `v` into register `n` brings the drained state to the written file. -/
theorem drained_of_written {n : RegNum} {v pc : Word} (hw : writesRegister s.de.instr = true) (hn : n.toNat < 8)
    (hdest : s.de.dest = n) (hv : programOrderValue t n = v) : Drained t ⟨pc, a.x.set n.toNat v, a.dm⟩ := by
  constructor
  · intro r
    rw [readReg_set a.x hn]
    split
    · rename_i hr
      rw [hr, hv]
    · rename_i hr
      have hne : (s.de.dest == r) = false := by
        rw [hdest, beq_eq_false_iff_ne]
        exact fun he => hr he.symm
      simp [programOrderValue_of_step hi h, hne, hd.regs]
  · have hs : isSw s.de.instr = false := by
      rw [writesRegister, Bool.or_eq_true] at hw
      exact hw.elim isSw_eq_false_of_isAlu isSw_eq_false_of_isLw
    simp [drainedDm_of_step h, hs, hd.dm]

/-- R121, R122: the result `v` of an `add` or `sub`. -/
theorem drained_of_alu {v : Word} (ha : isAlu s.de.instr = true) (hem : exEm s = aluOut s v) {b : Arch}
    (hx : andThen (writeReg a.x (rdOf s.de.instr) v) (fun x => .next { a with x := x, pc := a.pc + 4 }) = .next b) :
    Drained t b ∧ dataInRange t = true ∧ b.pc = actualNext s a.pc := by
  obtain ⟨x, hx, hb⟩ := andThen_eq_next.1 hx
  obtain ⟨hn, rfl⟩ := writeReg_eq_next.1 hx
  obtain rfl := next_eq_next.1 hb
  have hdest : s.de.dest = rdOf s.de.instr := by rw [hi.deFields.dest, destOf_of_isAlu ha]
  have hv : programOrderValue t (rdOf s.de.instr) = v := by
    simp [programOrderValue_of_step hi h, ha, hdest, hem, aluOut]
  have hl : isLw s.de.instr = false := by simp [isLw, ((isAlu_iff _).1 ha).1]
  exact ⟨drained_of_written hi h hd (by simp [writesRegister, ha]) hn hdest hv,
    dataInRange_of_no_access h hl (isSw_eq_false_of_isAlu ha),
    (actualNext_of_not_isBne (isBne_eq_false_of_isAlu ha) _).symm⟩

/-- R123. -/
theorem drained_of_lw (ho : OperandsOf s a) (hl : isLw s.de.instr = true) {b : Arch}
    (hx : refExec (.lw (rtOf s.de.instr) (immOf s.de.instr) (rsOf s.de.instr)) a = .next b) :
    Drained t b ∧ dataInRange t = true ∧ b.pc = actualNext s a.pc := by
  obtain ⟨v, hread, hx⟩ := andThen_eq_next.1 hx
  obtain ⟨x, hx, hb⟩ := andThen_eq_next.1 hx
  obtain ⟨hr, rfl⟩ := memRead_eq_next.1 hread
  obtain ⟨hn, rfl⟩ := writeReg_eq_next.1 hx
  obtain rfl := next_eq_next.1 hb
  have haddr := effectiveAddress_of_operandsOf hi.deFields ho (.inl hl)
  have hdest : s.de.dest = rtOf s.de.instr := by rw [hi.deFields.dest, destOf_of_isLw hl]
  have hv : programOrderValue t (rtOf s.de.instr) =
      Memory.read a.dm (wordIndex (a.address (immOf s.de.instr) (rsOf s.de.instr))) := by
    simp [programOrderValue_of_step hi h, isAlu_eq_false_of_isLw hl, hl, hdest, exEm_of_isLw hl, haddr, hd.dm]
  exact ⟨drained_of_written hi h hd (by simp [writesRegister, hl]) hn hdest hv,
    by simp [dataInRange_of_step h, exEm_of_isLw hl, haddr, hr],
    (actualNext_of_not_isBne (isBne_eq_false_of_isLw hl) _).symm⟩

/-- R124. -/
theorem drained_of_sw (ho : OperandsOf s a) (hs : isSw s.de.instr = true) {b : Arch}
    (hx : refExec (.sw (rtOf s.de.instr) (immOf s.de.instr) (rsOf s.de.instr)) a = .next b) :
    Drained t b ∧ dataInRange t = true ∧ b.pc = actualNext s a.pc := by
  obtain ⟨dm, hwrite, hb⟩ := andThen_eq_next.1 hx
  obtain ⟨hr, rfl⟩ := memWrite_eq_next.1 hwrite
  obtain rfl := next_eq_next.1 hb
  have haddr := effectiveAddress_of_operandsOf hi.deFields ho (.inr hs)
  have hval : operandB s = readReg a.x (rtOf s.de.instr) := by
    rw [ho.operandB (ne_zero_of_isSw hs), hi.deFields.rt]
  have ha : isAlu s.de.instr = false := by simp [isAlu, (isSw_iff _).1 hs]
  refine ⟨⟨fun r => ?_, ?_⟩, ?_, (actualNext_of_not_isBne (isBne_eq_false_of_isSw hs) _).symm⟩
  · simp [programOrderValue_of_step hi h, ha, isLw_eq_false_of_isSw hs, hd.regs]
  · simp [drainedDm_of_step h, hs, exEm_of_isSw hs, haddr, hval, hd.dm]
  · simp [dataInRange_of_step h, exEm_of_isSw hs, haddr, hr]

omit h hd in
/-- R125: the direction of the `bne` in Execute is the reference's. -/
theorem taken_iff_of_operandsOf (ho : OperandsOf s a) (hb : isBne s.de.instr = true) :
    taken s = true ↔ readReg a.x (rsOf s.de.instr) ≠ readReg a.x (rtOf s.de.instr) := by
  have h0 := ne_zero_of_isBne hb
  rw [taken, branchTaken_iff_ne, ho.operandA h0, ho.operandB h0, hi.deFields.rs, hi.deFields.rt]

/-- The cycle of an instruction that the reference takes brings the drained state to the reference's next state; its data
access, one cycle later, is in range; and its successor is the reference's. -/
theorem drained_of_refExec {b : Arch} {i : Instr} (ho : OperandsOf s a) (hdec : DecodesTo s.de.instr i)
    (hx : refExec i a = .next b) : Drained t b ∧ dataInRange t = true ∧ b.pc = actualNext s a.pc := by
  have hidle (hw : writesRegister s.de.instr = false) (hs : isSw s.de.instr = false) {pc : Word} :
      Drained t ⟨pc, a.x, a.dm⟩ ∧ dataInRange t = true := by
    obtain ⟨-, hl⟩ : isAlu s.de.instr = false ∧ isLw s.de.instr = false := by simpa [writesRegister] using hw
    obtain ⟨hregs, hdm⟩ := drained_of_idle hi h hd hw hs
    exact ⟨⟨hregs, hdm⟩, dataInRange_of_no_access h hl hs⟩
  cases hdec with
  | noop h0 =>
    obtain rfl := next_eq_next.1 hx
    have hidle := hidle (pc := a.pc + 4) (by simp [writesRegister, h0]) (by simp [h0])
    exact ⟨hidle.1, hidle.2, (actualNext_of_not_isBne (by simp [h0]) _).symm⟩
  | add hop _ hf _ =>
    have ha : isAdd s.de.instr = true := (isAdd_iff _).2 ⟨hop, hf⟩
    have halu : isAlu s.de.instr = true := (isAlu_iff_isAdd_or_isSub _).2 (.inl ha)
    have h0 := ne_zero_of_isAlu halu
    refine drained_of_alu hi h hd halu (exEm_of_isAdd ha) ?_
    rw [ho.operandA h0, ho.operandB h0, hi.deFields.rs, hi.deFields.rt]
    exact hx
  | sub hop _ hf _ =>
    have hs : isSub s.de.instr = true := (isSub_iff _).2 ⟨hop, hf⟩
    have halu : isAlu s.de.instr = true := (isAlu_iff_isAdd_or_isSub _).2 (.inr hs)
    have h0 := ne_zero_of_isAlu halu
    refine drained_of_alu hi h hd halu (exEm_of_isSub hs) ?_
    rw [ho.operandA h0, ho.operandB h0, hi.deFields.rs, hi.deFields.rt]
    exact hx
  | lw hop _ => exact drained_of_lw hi h hd ho ((isLw_iff _).2 hop) hx
  | sw hop _ => exact drained_of_sw hi h hd ho ((isSw_iff _).2 hop) hx
  | bne hop _ =>
    obtain rfl := next_eq_next.1 hx
    have hb : isBne s.de.instr = true := (isBne_iff _).2 hop
    have hidle := hidle (pc := if readReg a.x (rsOf s.de.instr) != readReg a.x (rtOf s.de.instr) then
      branchTarget (immOf s.de.instr) else a.pc + 4) (by simp [writesRegister, isAlu, isLw, hop]) (by simp [isSw, hop])
    refine ⟨hidle.1, hidle.2, ?_⟩
    have ht : taken s = (readReg a.x (rsOf s.de.instr) != readReg a.x (rtOf s.de.instr)) := by
      rw [Bool.eq_iff_iff, taken_iff_of_operandsOf hi ho hb, bne_iff_ne]
    simp [actualNext, hb, ht, hi.deFields.target]
  | halt _ => cases hx

end

end Sys2Proof.Machine
end

section
/-! The pipeline run against the reference run (40_instructions.md section 1, 70_reset_and_hazards.md section 3). A state
of the run holds the reference's next instruction in Execute, in Decode or still at PC; the cycle in which it stands in
Execute takes the reference one instruction on, and the other cycles bring it nearer to Execute. -/

namespace Sys2Proof.Machine

/-! ## Where the next instruction stands -/

/-- The instruction at `p` is in FD, and fetch goes on behind it. -/
def InDecode (s : State) (p : Word) : Prop :=
  s.fd.instr = Memory.read s.im (wordIndex p) ∧ s.fd.pcPlus4 = p + 4 ∧ s.pc = p + 4

/-- FD holds the word 0 of a bubble, and the instruction at `p` is fetched next. -/
def InFetch (s : State) (p : Word) : Prop := s.fd.instr = 0 ∧ s.pc = p

/-- The address that was followed behind the instruction at `p` in Execute. -/
def predictedNext (s : State) (p : Word) : Word :=
  if isBne s.de.instr && predT s.de.pred then s.de.target else p + 4

/-- The instruction at `p` is the next one that Execute runs, in as many cycles as the number says. -/
inductive NextAt (s : State) (p : Word) : Nat → Prop
  | execute : s.de.instr = Memory.read s.im (wordIndex p) → (s.de.instr ≠ 0 → s.de.pcPlus4 = p + 4) →
      InDecode s (predictedNext s p) ∨ InFetch s (predictedNext s p) → NextAt s p 0
  | decode : s.de = DE.bubble → InDecode s p → NextAt s p 1
  | fetch : s.de = DE.bubble → InFetch s p → NextAt s p 2

theorem predictedNext_eq_actualNext {s : State} (hr : exRedirect s = none) (p : Word) :
    predictedNext s p = actualNext s p := by
  unfold predictedNext actualNext
  cases hb : isBne s.de.instr with
  | false => rfl
  | true => rw [taken_eq_predT_of_no_redirect hb hr]

section
variable {s t : State} (h : step s = .next t) {p : Word}
include h

theorem nextAt_of_inDecode (hr : exRedirect s = none) (hs : stall s = false) (hp : InDecode s p) :
    NextAt t p 0 := by
  obtain ⟨hfd, hplus, hpc⟩ := hp
  have him := (step_backAdvances h).im
  have hfront := step_frontAdvances h hr
  have hde := frontAdvances_decodes hfront hs
  have hin : t.de.instr = s.fd.instr := by rw [hde, decodeStage_instr]
  refine .execute (by rw [hin, hfd, him]) (fun h0 => ?_) ?_
  · rw [hin] at h0
    rw [hde, decodeStage_of_ne_zero h0, hplus]
  · cases hd : idRedirect s with
    | true =>
      obtain ⟨-, hb, hp⟩ := (idRedirect_iff s).1 hd
      obtain ⟨hpc', hfd', -⟩ := frontAdvances_idRedirect hfront hd
      refine .inr ⟨by rw [hfd']; rfl, ?_⟩
      rw [hpc', predictedNext, hde, decodeStage_of_ne_zero (ne_zero_of_isBne hb)]
      simp [hb, hp, predT]
    | false =>
      have hnext : predictedNext t p = p + 4 := by
        rw [predictedNext, if_neg]
        rw [Bool.and_eq_true, hde]
        rintro ⟨hb, hp⟩
        simp [idRedirect_of_decoded hs hb hp] at hd
      obtain ⟨hpc', hfd', -⟩ := frontAdvances_sequential hfront hs hd
      rw [hnext]
      exact .inl ⟨by rw [hfd', hpc, him], by rw [hfd', hpc], by rw [hpc', hpc]⟩

theorem nextAt_of_inFetch (hr : exRedirect s = none) (hs : stall s = false) (hp : InFetch s p) : NextAt t p 1 := by
  obtain ⟨hfd, hpc⟩ := hp
  have hd : idRedirect s = false := by simp [idRedirect, hfd]
  obtain ⟨hpc', hfd', hde⟩ := frontAdvances_sequential (step_frontAdvances h hr) hs hd
  refine .decode (hde.trans (decodeStage_of_zero hfd)) ⟨?_, ?_, ?_⟩
  · rw [hfd', hpc, (step_backAdvances h).im]
  · rw [hfd', hpc]
  · rw [hpc', hpc]

/-- Whether it stalls or not, a front that advances keeps the instruction at `p` next. -/
theorem nextAt_of_advance (hr : exRedirect s = none) (hp : InDecode s p ∨ InFetch s p) : ∃ k ≤ 2, NextAt t p k := by
  cases hs : stall s with
  | true =>
    obtain ⟨hpc, hfd, hde⟩ := frontAdvances_stall (step_frontAdvances h hr) hs
    rcases hp with ⟨hw, hplus, hp⟩ | ⟨hw, hp⟩
    · exact ⟨1, by omega, .decode hde ⟨by rw [hfd, hw, (step_backAdvances h).im], by rw [hfd, hplus], by rw [hpc, hp]⟩⟩
    · exact ⟨2, by omega, .fetch hde ⟨by rw [hfd, hw], by rw [hpc, hp]⟩⟩
  | false =>
    rcases hp with hp | hp
    · exact ⟨0, by omega, nextAt_of_inDecode h hr hs hp⟩
    · exact ⟨1, by omega, nextAt_of_inFetch h hr hs hp⟩

/-- Behind the instruction at `p` in Execute its actual successor is next: the one followed, or the one redirected to. -/
theorem nextAt_of_execute (h0 : s.de.instr ≠ 0 → s.de.pcPlus4 = p + 4)
    (hp : InDecode s (predictedNext s p) ∨ InFetch s (predictedNext s p)) : ∃ k ≤ 2, NextAt t (actualNext s p) k := by
  cases hr : exRedirect s with
  | none => exact nextAt_of_advance h hr (predictedNext_eq_actualNext hr p ▸ hp)
  | some q =>
    obtain ⟨hpc, hfd, hde, -⟩ := step_redirects h hr
    obtain ⟨hb, hq⟩ := exRedirect_eq_some.1 hr
    have hnext : q = actualNext s p := by
      rcases hq with ⟨ht, -, rfl⟩ | ⟨ht, -, rfl⟩
      · simp [actualNext, hb, ht]
      · simp [actualNext, ht, h0 (ne_zero_of_isBne hb)]
    exact ⟨2, by omega, .fetch hde ⟨by rw [hfd]; rfl, hpc.trans hnext⟩⟩

end

/-! ## The state of a run -/

/-- `s` is a state of the pipeline run where the reference stands at `a`, having written `w1` and before it `w2`; its next
instruction reaches Execute in `k` cycles. -/
structure Running (s : State) (a : Arch) (w1 w2 : Option RegNum) (k : Nat) : Prop where
  inv : Invariant s
  emLive : isHalt s.em.instr = false
  mwLive : isHalt s.mw.instr = false
  inRange : dataInRange s = true
  drained : Drained s a
  next : NextAt s a.pc k
  fresh : s.de.instr ≠ 0 → operandA s = programOrderValue s s.de.rs ∧ operandB s = programOrderValue s s.de.rt
  base : s.de.instr ≠ 0 → (writesRegister s.em.instr = true → s.em.dest ≠ s.de.rs) →
    (writesRegister s.mw.instr = true → s.mw.dest ≠ s.de.rs) → s.de.valA = programOrderValue s s.de.rs
  emWriter : writesRegister s.em.instr = true → w1 = some s.em.dest
  mwWriter : writesRegister s.mw.instr = true → w1 = some s.mw.dest ∨ w2 = some s.mw.dest

theorem running_launch {p : Launch} (h : p.ok = true) : Running (State.launch p) (Arch.launch p) none none 2 where
  inv := invariant_launch h
  emLive := by simp
  mwLive := by simp
  inRange := by simp [dataInRange]
  drained := ⟨fun r => by simp [programOrderValue, decodeOperand, fwdID, Arch.launch],
    by simp [drainedDm, Arch.launch]⟩
  next := .fetch rfl ⟨rfl, rfl⟩
  fresh h0 := absurd rfl h0
  base h0 := absurd rfl h0
  emWriter hw := by simp [writesRegister] at hw
  mwWriter hw := by simp [writesRegister] at hw

/-- What the next state of a run needs beside the reference's progress: the instruction that leaves Execute, if it writes
a register, is the nearer of the two writers. -/
theorem running_of_step {s t : State} {a b : Arch} {w1 w2 v1 v2 : Option RegNum} {k l : Nat}
    (hs : Running s a w1 w2 k) (h : step s = .next t) (hlive : isHalt s.de.instr = false)
    (hin : dataInRange t = true) (hd : Drained t b) (hn : NextAt t b.pc l)
    (hde : writesRegister s.de.instr = true → v1 = some s.de.dest) (hem : w1 = v1 ∨ w1 = v2) :
    Running t b v1 v2 l := by
  have hmw : t.mw = mwNext s := (step_backAdvances h).mw
  have hdest : writesRegister s.em.instr = true → t.mw.dest = s.em.dest := fun hw => by
    rw [hmw, mwNext_dest_of_writesRegister hw]
  have hmwInstr : t.mw.instr = s.em.instr := by rw [hmw, mwNext_instr]
  have hemInstr : t.em.instr = s.de.instr := by rw [step_em h, exEm_instr]
  exact {
    inv := invariant_of_step hs.inv h
    emLive := by rw [hemInstr, hlive]
    mwLive := by rw [hmwInstr, hs.emLive]
    inRange := hin, drained := hd, next := hn
    fresh := operands_fresh_of_step hs.inv h
    base := fun h0 hew hmw => base_fresh_of_step hs.inv h h0 hew fun hw => hdest hw ▸ hmw (hmwInstr ▸ hw)
    emWriter := fun hw => by
      rw [hemInstr] at hw
      rw [hde hw, step_em h, exEm_dest, if_pos hw]
    mwWriter := fun hw => by
      rw [hmwInstr] at hw
      rw [hdest hw, ← hs.emWriter hw]
      exact hem.imp Eq.symm Eq.symm }

/-! ## The base-register rule (R280) -/

theorem writtenReg_of_decodesTo {w : Word} {i : Instr} (h : DecodesTo w i) (hw : writesRegister w = true) :
    writtenReg i = some (destOf w) := by
  cases h with
  | noop h0 => simp [writesRegister, h0] at hw
  | add ho _ _ _ | sub ho _ _ _ => rw [writtenReg, destOf, if_pos ho]
  | lw ho _ => rw [writtenReg, destOf_of_isLw ((isLw_iff _).2 ho)]
  | sw ho _ | bne ho _ | halt ho => simp [writesRegister, isAlu, isLw, ho] at hw

theorem baseReg_of_decodesTo {w : Word} {i : Instr} (h : DecodesTo w i) (hw : isLw w = true ∨ isSw w = true) :
    baseReg i = some (rsOf w) := by
  cases h with
  | noop h0 => simp [h0] at hw
  | lw _ _ | sw _ _ => rfl
  | add ho _ _ _ | sub ho _ _ _ | bne ho _ | halt ho => simp [isLw, isSw, ho] at hw

theorem keepsBaseRule_of_baseReg {i : Instr} {w1 w2 : Option RegNum} {r : RegNum} (h : keepsBaseRule i w1 w2 = true)
    (hr : baseReg i = some r) : w1 ≠ some r ∧ w2 ≠ some r := by
  simpa [keepsBaseRule, hr] using h

/-- Under the rule the word in Execute has the operands the reference gives. -/
theorem operandsOf_of_running {s : State} {a : Arch} {w1 w2 : Option RegNum} {k : Nat} {i : Instr}
    (hs : Running s a w1 w2 k) (hi : DecodesTo s.de.instr i) (hrule : keepsBaseRule i w1 w2 = true) :
    OperandsOf s a where
  operandA h0 := by rw [(hs.fresh h0).1, hs.drained.regs]
  operandB h0 := by rw [(hs.fresh h0).2, hs.drained.regs]
  base hls := by
    obtain ⟨h1, h2⟩ := keepsBaseRule_of_baseReg hrule (baseReg_of_decodesTo hi hls)
    rw [hs.drained.regs]
    refine hs.base (hls.elim ne_zero_of_isLw ne_zero_of_isSw) (fun hw hd => ?_) fun hw hd => ?_
    · exact h1 (by rw [hs.emWriter hw, hd, hs.inv.deFields.rs])
    · rcases hs.mwWriter hw with hm | hm
      · exact h1 (by rw [hm, hd, hs.inv.deFields.rs])
      · exact h2 (by rw [hm, hd, hs.inv.deFields.rs])

theorem keepsBaseRuleFrom_succ {im : Memory} {n : Nat} {w1 w2 : Option RegNum} {a b : Arch} {i : Instr}
    (h : keepsBaseRuleFrom im (n + 1) w1 w2 a = true) (hf : refFetch im a = .next i) (hx : refExec i a = .next b) :
    keepsBaseRule i w1 w2 = true ∧ keepsBaseRuleFrom im n (writtenReg i) w1 b = true := by
  simpa [keepsBaseRuleFrom, hf, hx] using h

theorem not_isHalt_of_refExec {w : Word} {i : Instr} {a b : Arch} (h : DecodesTo w i) (hx : refExec i a = .next b) :
    isHalt w = false := by
  cases h with
  | noop h0 => simp [h0]
  | add ho _ _ _ | sub ho _ _ _ | lw ho _ | sw ho _ | bne ho _ => simp [isHalt, ho]
  | halt _ => cases hx

/-! ## One cycle -/

/-- `s` is a state of the run, from which the reference ends at `c`; `m` bounds the cycles until its `halt` is in
Execute. -/
def Tracks (c : Arch) (m : Nat) (s : State) : Prop :=
  ∃ n a w1 w2 k, Running s a w1 w2 k ∧ refRun s.im n a = some (.next c) ∧
    keepsBaseRuleFrom s.im n w1 w2 a = true ∧ m = 3 * n + k

theorem running_of_tracks {c : Arch} {m : Nat} {s : State} (h : Tracks c m s) : ∃ a w1 w2 k, Running s a w1 w2 k := by
  obtain ⟨-, a, w1, w2, k, hrun, -⟩ := h
  exact ⟨a, w1, w2, k, hrun⟩

/-- The `halt` has left Execute, and the drained state is `c`. -/
structure Draining (s : State) (c : Arch) : Prop where
  inv : Invariant s
  emHalt : isHalt s.em.instr = true
  mwLive : isHalt s.mw.instr = false
  drained : Drained s c

section
variable {s t : State} {a : Arch} {w1 w2 : Option RegNum} {k : Nat} (hs : Running s a w1 w2 k) (h : step s = .next t)
include hs h

/-- A cycle with a bubble in Execute brings the next instruction nearer. -/
theorem running_of_bubble {l : Nat} (hde : s.de = DE.bubble) (hn : NextAt t a.pc l) : Running t a w1 w2 l := by
  have hw : writesRegister s.de.instr = false := by simp [hde, writesRegister]
  have hdr : Drained t a := drained_of_idle hs.inv h hs.drained hw (by simp [hde])
  exact running_of_step hs h (by simp [hde]) (dataInRange_of_no_access h (by simp [hde]) (by simp [hde])) hdr hn
    (fun hw' => by simp [hw] at hw') (.inl rfl)

theorem draining_of_halt (hh : isHalt s.de.instr = true) : Draining t a := by
  have ho := (isHalt_iff _).1 hh
  exact {
    inv := invariant_of_step hs.inv h
    emHalt := by rw [step_em h, exEm_instr, hh]
    mwLive := by rw [(step_backAdvances h).mw, mwNext_instr, hs.emLive]
    drained := drained_of_idle hs.inv h hs.drained (by simp [writesRegister, isAlu, isLw, ho]) (by simp [isSw, ho]) }

/-- The cycle of an instruction other than `halt` takes the reference one instruction on. -/
theorem running_of_refExec {b : Arch} {i : Instr} (hi : DecodesTo s.de.instr i)
    (hrule : keepsBaseRule i w1 w2 = true) (hx : refExec i a = .next b) (h0 : s.de.instr ≠ 0 → s.de.pcPlus4 = a.pc + 4)
    (hp : InDecode s (predictedNext s a.pc) ∨ InFetch s (predictedNext s a.pc)) :
    ∃ l ≤ 2, Running t b (writtenReg i) w1 l := by
  obtain ⟨hdr, hin, hpc⟩ := drained_of_refExec hs.inv h hs.drained (operandsOf_of_running hs hi hrule) hi hx
  obtain ⟨l, hl, hn⟩ := nextAt_of_execute h h0 hp
  refine ⟨l, hl, running_of_step hs h (not_isHalt_of_refExec hi hx) hin hdr (hpc ▸ hn) (fun hw => ?_) (.inr rfl)⟩
  rw [writtenReg_of_decodesTo hi hw, hs.inv.deFields.dest]

end

theorem tracks_of_step {s t : State} {c : Arch} {m : Nat} (hs : Tracks c m s) (h : step s = .next t) :
    (∃ l < m, Tracks c l t) ∨ Draining t c := by
  obtain ⟨n, a, w1, w2, k, hrun, href, hrule, rfl⟩ := hs
  have him : t.im = s.im := (step_backAdvances h).im
  cases hrun.next with
  | decode hde hp =>
    have hn := nextAt_of_inDecode h (exRedirect_eq_none_of_bubble hde) (stall_eq_false_of_bubble hde) hp
    exact .inl ⟨3 * n, by omega, n, a, w1, w2, 0, running_of_bubble hrun h hde hn, him ▸ href, him ▸ hrule, rfl⟩
  | fetch hde hp =>
    have hn := nextAt_of_inFetch h (exRedirect_eq_none_of_bubble hde) (stall_eq_false_of_bubble hde) hp
    exact .inl ⟨3 * n + 1, by omega, n, a, w1, w2, 1, running_of_bubble hrun h hde hn, him ▸ href, him ▸ hrule, rfl⟩
  | execute hw h0 hp =>
    cases n with
    | zero => cases href
    | succ n =>
      rcases refRun_succ_eq_next.1 href with ⟨u, hf, rfl⟩ | ⟨i, b, hf, hx, href'⟩
      · have hdec := (refFetch_eq_next.1 hf).2
        have hh : isHalt s.de.instr = true := (isHalt_iff _).2 (hw ▸ opcode_eq_of_decode_halt hdec)
        exact .inr (draining_of_halt hrun h hh)
      · have hi : DecodesTo s.de.instr i := hw ▸ decode_cases (refFetch_eq_next.1 hf).2
        obtain ⟨hr, hrule'⟩ := keepsBaseRuleFrom_succ hrule hf hx
        obtain ⟨l, hl, hrun'⟩ := running_of_refExec hrun h hi hr hx h0 hp
        exact .inl ⟨3 * n + l, by omega, n, b, _, _, l, hrun', him ▸ href', him ▸ hrule', rfl⟩

/-! ## The end of the run -/

theorem eq_of_readReg_eq {x y : Vector Word 8} (h : ∀ r, readReg x r = readReg y r) : x = y := by
  ext1 n hn
  have hr : (BitVec.ofNat 5 n).toNat = n := by
    rw [BitVec.toNat_ofNat]
    omega
  have hread (z : Vector Word 8) : readReg z (BitVec.ofNat 5 n) = z[n] := by simp [readReg, hr, hn]
  rw [← hread x, ← hread y, h]

/-- The cycle after the `halt` has left Execute completes the last instruction, and the run is over. -/
theorem halted_of_draining {s t : State} {c : Arch} (hs : Draining s c) (h : step s = .next t) :
    halted t = true ∧ t.x = c.x ∧ t.dm = c.dm := by
  have ho := (isHalt_iff _).1 hs.emHalt
  have hw : writesRegister s.em.instr = false := by simp [writesRegister, isAlu, isLw, ho]
  refine ⟨?_, eq_of_readReg_eq fun r => ?_, ?_⟩
  · rw [halted, (step_backAdvances h).mw, mwNext_instr, hs.emHalt]
  · rw [readReg_of_step hs.inv h, hs.drained.regs, programOrderValue_of_not_written (by simp [hw])]
  · rw [step_dm h, hs.drained.dm]

/-- The run function ends from `s` in the halt observation with the registers and data of `c`, or in a fetch out of
range. -/
def EndsAs (c : Arch) (s : State) : Prop :=
  ∃ fuel, (∃ t, runToHalt fuel s = some (.next t) ∧ halted t = true ∧ t.x = c.x ∧ t.dm = c.dm) ∨
    ∃ pc, runToHalt fuel s = some (.fault (.fetchOutOfRange pc))

theorem endsAs_of_halted {s : State} {c : Arch} (hh : halted s = true) (hx : s.x = c.x) (hdm : s.dm = c.dm) :
    EndsAs c s :=
  ⟨0, .inl ⟨s, by simp [runToHalt, hh], hh, hx, hdm⟩⟩

/-- With the data access in range, a state ends as its next state does, or its cycle ends in the fetch. -/
theorem endsAs_of_next {s : State} {c : Arch} (hi : Invariant s) (hh : halted s = false) (hd : dataInRange s = true)
    (hnext : ∀ t, step s = .next t → EndsAs c t) : EndsAs c s := by
  obtain ⟨-, hfetch, hgo⟩ := stepOutcomes s hi hh
  by_cases hf : exRedirect s ≠ none ∨ fetchInRange s = true
  · obtain ⟨t, ht⟩ := hgo hd hf
    obtain ⟨fuel, hend⟩ := hnext t ht
    have hrun : runToHalt (fuel + 1) s = runToHalt fuel t := by simp [runToHalt, hh, ht]
    exact ⟨fuel + 1, by rw [hrun]; exact hend⟩
  · rw [not_or, not_not, Bool.not_eq_true] at hf
    exact ⟨1, .inr ⟨s.pc, by simp [runToHalt, hh, hfetch hd hf.1 hf.2]⟩⟩

theorem endsAs_of_draining {s : State} {c : Arch} (hs : Draining s c) : EndsAs c s := by
  have ho := (isHalt_iff _).1 hs.emHalt
  refine endsAs_of_next hs.inv hs.mwLive (by simp [dataInRange, isLw, isSw, ho]) fun t ht => ?_
  obtain ⟨hh, hx, hdm⟩ := halted_of_draining hs ht
  exact endsAs_of_halted hh hx hdm

/-- By induction on the bound: every cycle lowers it, until the `halt` leaves Execute. -/
theorem endsAs_of_tracks {c : Arch} (m : Nat) {s : State} (hs : Tracks c m s) : EndsAs c s := by
  induction m using Nat.strong_induction_on generalizing s with
  | _ m ih =>
    obtain ⟨a, w1, w2, k, hrun⟩ := running_of_tracks hs
    refine endsAs_of_next hrun.inv hrun.mwLive hrun.inRange fun t ht => ?_
    rcases tracks_of_step hs ht with ⟨l, hl, hl'⟩ | hdr
    · exact ih l hl hl'
    · exact endsAs_of_draining hdr

theorem endsAs_launch {p : Launch} {n : Nat} {c : Arch} (hp : p.ok = true) (href : refProgram n p = some (.next c))
    (hrule : p.keepsBaseRule n = true) : EndsAs c (State.launch p) :=
  endsAs_of_tracks _ ⟨n, Arch.launch p, none, none, 2, running_launch hp, href, hrule, rfl⟩

/-- Settles O46: the run function begins at the launch state, as a proper launch has no reserved word. -/
theorem pipelineRunEndsAsReference : Obligations.PipelineRunEndsAsReference := by
  intro p n c hp href hrule
  have hw : firstReserved p.im = none := (firstReserved_eq_none_iff _).2 (invariant_launch hp).imWords
  obtain ⟨fuel, hend⟩ := endsAs_launch hp href hrule
  have hrun : runProgram fuel p = runToHalt fuel (State.launch p) := by simp [runProgram, hw]
  exact ⟨fuel, by rw [hrun]; exact hend⟩

theorem core_run_succ {M : Host.Core} {k : Nat} {s t : M.State} (h : M.run (k + 1) s = .next t) :
    ∃ u, M.step s = .next u ∧ M.run k u = .next t := by
  cases hs : M.step s with
  | next u => exact ⟨u, rfl, by simpa [Host.Core.run, hs] using h⟩
  | fault e => simp [Host.Core.run, hs] at h
  | refused e => simp [Host.Core.run, hs] at h

/-- Cycles that end in a halted state are what the run function runs, whatever its fuel. -/
theorem runToHalt_eq_of_run {k : Nat} {s t : State} (h : Host.Core.run Sys2Proof.core k s = .next t)
    (ht : halted t = true) {fuel : Nat} {r : Result State} (hr : runToHalt fuel s = some r) : r = .next t := by
  induction k generalizing s fuel with
  | zero =>
    obtain rfl := Host.Outcome.next.inj h
    cases fuel <;> simpa [runToHalt, ht, eq_comm] using hr
  | succ k ih =>
    obtain ⟨u, hs, hu⟩ : ∃ u : State, step s = .next u ∧ Host.Core.run Sys2Proof.core k u = .next t :=
      core_run_succ h
    cases fuel with
    | zero => simp [runToHalt, step_not_halted hs] at hr
    | succ fuel => exact ih hu (by simpa [runToHalt, step_not_halted hs, hs] using hr)

/-- Settles O45: the run function ends as the reference does, and its end is the halted state of the run. -/
theorem pipelineAgreesWithReference : Obligations.PipelineAgreesWithReference := by
  intro p n k c s hp href hrule hrun hh
  obtain ⟨fuel, ⟨t, ht, -, hx, hdm⟩ | ⟨pc, hpc⟩⟩ := endsAs_launch hp href hrule
  · obtain rfl := Host.Outcome.next.inj (runToHalt_eq_of_run hrun hh ht)
    exact ⟨hx, hdm⟩
  · cases runToHalt_eq_of_run hrun hh hpc

end Sys2Proof.Machine
end
